-- ==== Sys2Proof/Word.lean ====
section
/-! DEFINITION. The word types of the block: symbol and data bytes (00_scope.md R6), command words
(30_encoding.md R80) and response words (30_encoding.md R86). All values are unsigned (00_scope.md R8). -/

namespace Sys2Proof

/-- A raw byte or a symbol, `u8`. -/
abbrev Byte := BitVec 8

/-- The command word `CW`, 40 bits (30_encoding.md R80). -/
abbrev CommandWord := BitVec 40

/-- The response word `RW`, 48 bits (30_encoding.md R86). -/
abbrev ResponseWord := BitVec 48

end Sys2Proof
end

