-- ==== Sys2Proof/Config.lean ====
section
/-! DEFINITION. What is constant for one build of the block and is not state (00_scope.md R6, R7, 10_state.md R30):
the four build parameters, the check that refuses a malformed CUSTOM table, and this build's open values as opaque
constants. -/

namespace Sys2Proof

/-- The contents of one encoding ROM: exactly 85 entries of 8 bits, indexed by digit 0..84 (00_scope.md R6,
10_state.md R41). -/
abbrev Rom := Vector Byte 85

/-- The 85 entries are pairwise distinct (00_scope.md R7). They need not be printable. -/
def Rom.distinct (r : Rom) : Bool := decide r.toList.Nodup

/-- A well-formed CUSTOM image. A table with duplicates has no semantics at all (R7, 93_implementation_defined.md U1),
so none can be built here: assumption log 2. -/
structure CustomTable where
  rom : Rom
  ok  : rom.distinct = true

/-- The build parameters as 00_scope.md R6 lists them, before any check. -/
structure Params where
  hasCustom   : Bool
  customTable : List Byte
  lat         : Nat
  respDepth   : Nat
deriving DecidableEq, Repr

/-- The conditions of R6 and R7: `LAT >= 1`, `RESP_DEPTH >= 1`, and, where `HAS_CUSTOM` is true, a table of 85
pairwise distinct bytes. -/
def Params.wf (p : Params) : Bool :=
  decide (1 ≤ p.lat) && decide (1 ≤ p.respDepth) &&
    (!p.hasCustom || (decide (p.customTable.length = 85) && decide p.customTable.Nodup))

/-- A build the model gives semantics to. `HAS_CUSTOM` and `CUSTOM_TABLE` are one field, since the table has meaning
only when `HAS_CUSTOM` is true (R6). `RESP_DEPTH` and `LAT` are held less one, since both are at least 1. -/
structure Build where
  custom     : Option CustomTable
  spareDepth : Nat
  latLess1   : Nat

/-- `HAS_CUSTOM` (R6). -/
def Build.hasCustom (b : Build) : Bool := b.custom.isSome

/-- `RESP_DEPTH` (R6). -/
def Build.respDepth (b : Build) : Nat := b.spareDepth + 1

/-- `LAT` (R6). No rule reads it (70_reset_and_hazards.md R270): assumption log 3. -/
def Build.lat (b : Build) : Nat := b.latLess1 + 1

/-- The image a build without or with CUSTOM holds for TSEL = 2; a malformed table gives no build (R7). -/
def Params.custom? (p : Params) : Option (Option CustomTable) :=
  match p.hasCustom with
  | false => some none
  | true =>
    if hlen : p.customTable.length = 85 then
      if hok : (Rom.distinct ⟨⟨p.customTable⟩, hlen⟩) = true then some (some ⟨⟨⟨p.customTable⟩, hlen⟩, hok⟩) else none
    else none

/-- The build of a set of parameters, or none where the parameters are refused (R7). -/
def Params.build? (p : Params) : Option Build :=
  if 1 ≤ p.lat ∧ 1 ≤ p.respDepth then
    p.custom?.map fun c => { custom := c, spareDepth := p.respDepth - 1, latLess1 := p.lat - 1 }
  else none

/-- `HAS_CUSTOM` and `CUSTOM_TABLE` of this hardware: OPEN (R6, 92_eei_decisions.md D7). Assumption log 1. -/
opaque Config.custom : Option CustomTable

/-- `RESP_DEPTH` less one: OPEN (R6, 92_eei_decisions.md D31). Assumption log 4. -/
opaque Config.spareDepth : Nat

/-- `LAT` less one: OPEN (R6, 92_eei_decisions.md D21). Assumption log 3. -/
opaque Config.latLess1 : Nat

/-- This hardware's build. Nothing in Lean can evaluate its three open values, so a claim about it holds for all of
them. -/
def Config.build : Build :=
  { custom := Config.custom, spareDepth := Config.spareDepth, latLess1 := Config.latLess1 }

end Sys2Proof
end

