-- ==== Sys2Proof/Syntax.lean ====
section
/-! DEFINITION. The block's instructions: one constructor for each row of spec/opcode_table.json (30_encoding.md R98). -/

namespace Sys2Proof

/-- The nine commands, with the operands their rules read and no ignored bit (30_encoding.md R83, R84). -/
inductive Instr where
  /-- ENC1, 40_encoder.md R127: `b0` is DATA[31:24]. -/
  | enc1 (b0 : Byte)
  /-- ENC2, 40_encoder.md R126: `b0 b1` are DATA[31:16]. -/
  | enc2 (b0 b1 : Byte)
  /-- ENC3, 40_encoder.md R125: `b0 b1 b2` are DATA[31:8]. -/
  | enc3 (b0 b1 b2 : Byte)
  /-- ENC4, 40_encoder.md R122: `b0 b1 b2 b3` are DATA[31:0]. -/
  | enc4 (b0 b1 b2 b3 : Byte)
  /-- DEC, 41_decoder.md R150: the symbol byte is DATA[7:0]. -/
  | dec (sym : Byte)
  /-- DFL, 41_decoder.md R160. -/
  | dfl
  /-- CFG, 42_control.md R180: `tsel` is DATA[2:1], `gs` is DATA[0]. -/
  | cfg (tsel : BitVec 2) (gs : BitVec 1)
  /-- CLR, 42_control.md R182. -/
  | clr
  /-- STAT, 42_control.md R183. -/
  | stat
deriving DecidableEq, Repr

end Sys2Proof
end

