-- ==== Sys2Proof/WellFormed.lean ====
section
/-! DEFINITION. Which instructions are well formed for a build. Every operand's width is in its type, so the one value
check left is CFG's table select (42_control.md R181). The check of a build's parameters is `Params.wf`. -/

namespace Sys2Proof

/-- A TSEL value that names a ROM image of the build: 0, 1, and 2 only when `HAS_CUSTOM` (10_state.md R34, R35). -/
def tselExists (b : Build) (tsel : BitVec 2) : Bool :=
  match tsel.toNat with
  | 0 => true
  | 1 => true
  | 2 => b.hasCustom
  | _ => false

/-- A well-formed instruction: one whose operand values all exist in the build. An instruction that is not is still a
command the block executes: it answers ILLEGAL (R181, assumption log 16). -/
def Instr.wf (b : Build) : Instr → Bool
  | .enc1 _ => true
  | .enc2 _ _ => true
  | .enc3 _ _ _ => true
  | .enc4 _ _ _ _ => true
  | .dec _ => true
  | .dfl => true
  | .cfg tsel _ => tselExists b tsel
  | .clr => true
  | .stat => true

end Sys2Proof
end

