-- ==== Sys2Proof/Decode.lean ====
section
/-! DEFINITION. The command word (30_encoding.md R80 to R85, R98): its fields, the decoder, total on every 40-bit word
and rejecting by name, the encoder, and the opcode map as a list of mask and match rows. -/

namespace Sys2Proof

/-- Why a word spells no command (30_encoding.md R85). -/
inductive DecodeError where
  /-- OP = 0x0 or OP = 0x7 to 0xF (R81). -/
  | reservedOp (op : BitVec 4)
  /-- OP = 0x1 with N = 0 or N = 5..15 (R82). -/
  | badCount (n : BitVec 4)
deriving DecidableEq, Repr

/-- `OP = CW[39:36]` (R80). -/
def opField (w : CommandWord) : BitVec 4 := w.extractLsb' 36 4

/-- `N = CW[35:32]` (R80). -/
def nField (w : CommandWord) : BitVec 4 := w.extractLsb' 32 4

/-- `DATA = CW[31:0]` (R80). -/
def dataField (w : CommandWord) : BitVec 32 := w.extractLsb' 0 32

/-- Byte `j` of the group an ENC word carries: `DATA[31-8j : 24-8j]` (20_memory.md R63). -/
def groupByte (w : CommandWord) (j : Nat) : Byte := (dataField w).extractLsb' (24 - 8 * j) 8

/-- The symbol byte of a DEC word: `DATA[7:0]` (R83). -/
def symbolByte (w : CommandWord) : Byte := (dataField w).extractLsb' 0 8

/-- `TSEL = DATA[2:1]` of a CFG word (R83). -/
def tselField (w : CommandWord) : BitVec 2 := (dataField w).extractLsb' 1 2

/-- `GS = DATA[0]` of a CFG word (R83). -/
def gsField (w : CommandWord) : BitVec 1 := (dataField w).extractLsb' 0 1

/-- An OP = 0x1 word by its N (R82). -/
def decodeEnc (w : CommandWord) : Except DecodeError Instr :=
  match (nField w).toNat with
  | 1 => .ok (.enc1 (groupByte w 0))
  | 2 => .ok (.enc2 (groupByte w 0) (groupByte w 1))
  | 3 => .ok (.enc3 (groupByte w 0) (groupByte w 1) (groupByte w 2))
  | 4 => .ok (.enc4 (groupByte w 0) (groupByte w 1) (groupByte w 2) (groupByte w 3))
  | _ => .error (.badCount (nField w))

/-- The command a word spells (R81). Ignored bits are not looked at (R84, assumption log 15). -/
def decode (w : CommandWord) : Except DecodeError Instr :=
  match (opField w).toNat with
  | 1 => decodeEnc w
  | 2 => .ok (.dec (symbolByte w))
  | 3 => .ok .dfl
  | 4 => .ok (.cfg (tselField w) (gsField w))
  | 5 => .ok .clr
  | 6 => .ok .stat
  | _ => .error (.reservedOp (opField w))

/-- `CW = {OP, N, DATA}` (R80). -/
def commandWord (op n : BitVec 4) (data : BitVec 32) : CommandWord := op ++ n ++ data

/-- The word of an instruction, ignored fields written as zero (R98, R99). -/
def encode : Instr → CommandWord
  | .enc1 b0 => commandWord 0x1 1 (b0 ++ 0#24)
  | .enc2 b0 b1 => commandWord 0x1 2 (b0 ++ b1 ++ 0#16)
  | .enc3 b0 b1 b2 => commandWord 0x1 3 (b0 ++ b1 ++ b2 ++ 0#8)
  | .enc4 b0 b1 b2 b3 => commandWord 0x1 4 (b0 ++ b1 ++ b2 ++ b3)
  | .dec sym => commandWord 0x2 0 (0#24 ++ sym)
  | .dfl => commandWord 0x3 0 0
  | .cfg tsel gs => commandWord 0x4 0 (0#29 ++ tsel ++ gs)
  | .clr => commandWord 0x5 0 0
  | .stat => commandWord 0x6 0 0

/-- The name of a row of the opcode map (R98). -/
inductive Mnemonic where
  | ENC1 | ENC2 | ENC3 | ENC4 | DEC | DFL | CFG | CLR | STAT
deriving DecidableEq, Repr

/-- One row of the opcode map: a word spells the command when `(CW & mask) = pattern` (R98). -/
structure OpcodeRow where
  name    : Mnemonic
  pattern : CommandWord
  mask    : CommandWord
deriving DecidableEq, Repr

/-- The opcode map of R98, the same rows as spec/opcode_table.json. -/
def opcodeMap : List OpcodeRow :=
  [⟨.ENC1, 0x1100000000, 0xFF00000000⟩,
   ⟨.ENC2, 0x1200000000, 0xFF00000000⟩,
   ⟨.ENC3, 0x1300000000, 0xFF00000000⟩,
   ⟨.ENC4, 0x1400000000, 0xFF00000000⟩,
   ⟨.DEC,  0x2000000000, 0xF000000000⟩,
   ⟨.DFL,  0x3000000000, 0xF000000000⟩,
   ⟨.CFG,  0x4000000000, 0xF000000000⟩,
   ⟨.CLR,  0x5000000000, 0xF000000000⟩,
   ⟨.STAT, 0x6000000000, 0xF000000000⟩]

/-- A word matches a row (R98). -/
def OpcodeRow.matchesWord (r : OpcodeRow) (w : CommandWord) : Bool := w &&& r.mask == r.pattern

/-- The row an instruction belongs to. -/
def Instr.mnemonic : Instr → Mnemonic
  | .enc1 _ => .ENC1
  | .enc2 _ _ => .ENC2
  | .enc3 _ _ _ => .ENC3
  | .enc4 _ _ _ _ => .ENC4
  | .dec _ => .DEC
  | .dfl => .DFL
  | .cfg _ _ => .CFG
  | .clr => .CLR
  | .stat => .STAT

/-- The bits of a word that its command reads: OP, N where OP is ENC, and the operand bits of R83. Every other bit is
ignored (30_encoding.md R82, R83, R84). -/
def Mnemonic.readBits : Mnemonic → CommandWord
  | .ENC1 => 0xFFFF000000
  | .ENC2 => 0xFFFFFF0000
  | .ENC3 => 0xFFFFFFFF00
  | .ENC4 => 0xFFFFFFFFFF
  | .DEC  => 0xF0000000FF
  | .DFL  => 0xF000000000
  | .CFG  => 0xF000000007
  | .CLR  => 0xF000000000
  | .STAT => 0xF000000000

/-- The command word whose bits are `w`, bit 0 its least significant bit; every bit from `nbits` up is 0. The word is
one 40-bit unit at the command port (70_reset_and_hazards.md R271), so no byte order is involved. -/
def tableWord (nbits w : Nat) : CommandWord := BitVec.ofNat 40 (w % 2 ^ nbits)

/-- The instruction the decoder reads from an opcode-table word. -/
def decodeTableWord (nbits w : Nat) : Option Instr :=
  match decode (tableWord nbits w) with
  | .ok i => some i
  | .error _ => none

end Sys2Proof
end

