-- ==== Sys2Proof/Machine/State.lean ====
section
/-! DEFINITION. The machine's state as plain data: the spec's tuple `(CFG, ACC, DCNT, RQ)` (10_state.md R30), the ports'
coming inputs and the responses the host has taken (70_reset_and_hazards.md R271), and whether the block has been reset
yet (R252). Also the reasons a step can stop, and the state after reset (R45, R250). -/

namespace Sys2Proof.Machine

/-- What the host drives at the input ports at one rising edge of `clk` (70_reset_and_hazards.md R271): `rst`,
`cmd_valid` with `cmd_word` (`none` is `cmd_valid` = 0), and `rsp_ready`. -/
structure PortEdge where
  rst      : Bool
  cmd      : Option CommandWord
  rspReady : Bool
deriving DecidableEq, Repr

/-- Whether the block has been reset since power came up. The state before the first reset is unspecified (R252,
93_implementation_defined.md U5): in `preReset` no register is read and a command is refused. Assumption log 7. -/
inductive Phase where
  | preReset
  | live
deriving DecidableEq, Repr

structure State where
  /-- CFG, 3 bits: GS = CFG[0], TSEL = CFG[2:1] (10_state.md R34). -/
  cfg   : BitVec 3
  /-- ACC, the decoder's digit accumulator, 32 bits (10_state.md R38). -/
  acc   : BitVec 32
  /-- DCNT, the number of digits in ACC, 3 bits (10_state.md R39). -/
  dcnt  : BitVec 3
  /-- RQ, the responses produced and not yet taken, oldest first (10_state.md R44). -/
  rq    : List ResponseWord
  /-- Whether the first reset has happened (70_reset_and_hazards.md R252). The model's own field. -/
  phase : Phase
  /-- What the host will drive at the coming edges, the next edge first (R271). The model's own field: log 5. -/
  pins  : List PortEdge
  /-- The responses the host has taken, oldest first (R271). The model's own field: log 6. -/
  taken : List ResponseWord
deriving DecidableEq, Repr

/-- Why the machine stops. No rule of the spec stops the block; both reasons stand only in states no run reaches. -/
inductive Fault where
  /-- Raised by ENC1 to ENC4 and DEC where they would read a ROM image and CFG.TSEL names none (TSEL = 3, or 2 without
  `HAS_CUSTOM`). 10_state.md R35: no reachable state is so. Safe: the model stops. Assumption log 10. -/
  | noRomImage
  /-- Raised by DEC (on a digit) and DFL where DCNT is 5, 6 or 7. 10_state.md R39: these values are never reached.
  Safe: the model stops. Assumption log 11. -/
  | digitCountOutOfRange
deriving DecidableEq, Repr

/-- What the model gives no meaning to. -/
inductive Refusal where
  /-- An instruction that has no meaning yet: raised by no arm of `exec`. Safe. -/
  | notModelled (mnemonic : String)
  /-- Raised by the step where a command is presented before the first reset (70_reset_and_hazards.md R252: "a model
  refuses them"). Safe: the model stops. Assumption log 7. -/
  | commandBeforeReset
deriving DecidableEq, Repr

/-- The state right after reset (10_state.md R45, 70_reset_and_hazards.md R250): CFG, ACC and DCNT zero, RQ empty.
The host drives nothing yet and has taken nothing (log 5, log 6). -/
def State.reset : State :=
  { cfg := 0, acc := 0, dcnt := 0, rq := [], phase := .live, pins := [], taken := [] }

end Sys2Proof.Machine
end

