-- ==== Sys2Proof/Machine/Operands.lean ====
section
/-! DEFINITION. Every operand form of the block: the fields of CFG, the group value of ENC1 to ENC4, and the bytes of a
32-bit value (10_state.md R34, 20_memory.md R63, R64, 30_encoding.md R83, 40_encoder.md R121). -/

namespace Sys2Proof.Machine

/-- `CFG.TSEL = CFG[2:1]` (10_state.md R34). -/
def State.tsel (s : State) : BitVec 2 := s.cfg.extractLsb' 1 2

/-- `CFG.GS = CFG[0]` (10_state.md R34). -/
def State.gs (s : State) : BitVec 1 := s.cfg.extractLsb' 0 1

/-- The CFG register with the two fields given: `{TSEL, GS}` (10_state.md R34). -/
def cfgWord (tsel : BitVec 2) (gs : BitVec 1) : BitVec 3 := tsel ++ gs

/-- `MASK(n)`, which keeps the top `n` bytes of DATA (30_encoding.md R83). -/
def groupMask (n : Nat) : BitVec 32 := (BitVec.allOnes 32) <<< (8 * (4 - n))

/-- The 32-bit value `{b0, b1, b2, b3}` of a group, big-endian (20_memory.md R63). -/
def packGroup (b0 b1 b2 b3 : Byte) : BitVec 32 := b0 ++ b1 ++ b2 ++ b3

/-- The group value of ENC1: the missing bytes count as zero (40_encoder.md R121). -/
def groupValue1 (b0 : Byte) : BitVec 32 := packGroup b0 0 0 0

/-- The group value of ENC2 (40_encoder.md R121). -/
def groupValue2 (b0 b1 : Byte) : BitVec 32 := packGroup b0 b1 0 0

/-- The group value of ENC3 (40_encoder.md R121). -/
def groupValue3 (b0 b1 b2 : Byte) : BitVec 32 := packGroup b0 b1 b2 0

/-- The group value of ENC4 (40_encoder.md R121). -/
def groupValue4 (b0 b1 b2 b3 : Byte) : BitVec 32 := packGroup b0 b1 b2 b3

/-- `bytes(v, k)`: the `k` most significant bytes of a 32-bit value, first byte first (00_scope.md R9). -/
def bytesOf (v : BitVec 32) (k : Nat) : List Byte :=
  [v.extractLsb' 24 8, v.extractLsb' 16 8, v.extractLsb' 8 8, v.extractLsb' 0 8].take k

end Sys2Proof.Machine
end

