-- ==== Sys2Proof/Machine/Flags.lean ====
section
/-! DEFINITION. The block keeps no flag in state (10_state.md R40). What it computes are the zero-group and space-group
detectors of the encoder (40_encoder.md R123, R124) and the OVF bit of one response (41_decoder.md R154, R161). -/

namespace Sys2Proof.Machine

/-- `ZDET = (N = 4) and (W = 0)` (40_encoder.md R123). -/
def zdet (n : Nat) (w : BitVec 32) : Bool := decide (n = 4) && decide (w = 0x00000000)

/-- `SDET = (N = 4) and (CFG.GS = 1) and (W = 0x20202020)` (40_encoder.md R124). -/
def sdet (n : Nat) (gs : BitVec 1) (w : BitVec 32) : Bool :=
  decide (n = 4) && decide (gs = 1) && decide (w = 0x20202020)

/-- `OVF = (V >= 2**32)` (41_decoder.md R154, R161). -/
def overflow (v : Nat) : Bool := decide (2 ^ 32 ≤ v)

end Sys2Proof.Machine
end

