-- ==== Sys2Proof/Machine/Rom.lean ====
section
/-! DEFINITION. The ROM images (10_state.md R41, R42, 30_encoding.md R90 to R95): STANDARD, ZEROMQ and the optional
CUSTOM encoding ROMs, the decoding ROM derived from each, and the two shortcut symbols. -/

namespace Sys2Proof.Machine

/-- `ENC_ROM[STANDARD][i] = 33 + i` (30_encoding.md R90). -/
def standardRom : Rom := ⟨⟨(List.range 85).map fun i => BitVec.ofNat 8 (33 + i)⟩, by simp⟩

/-- Digits 0..35 of ZEROMQ: `0`..`9`, `a`..`z` (R91). -/
def zeromqLow : List Byte :=
  [0x30, 0x31, 0x32, 0x33, 0x34, 0x35, 0x36, 0x37, 0x38, 0x39,
   0x61, 0x62, 0x63, 0x64, 0x65, 0x66, 0x67, 0x68, 0x69, 0x6A, 0x6B, 0x6C, 0x6D,
   0x6E, 0x6F, 0x70, 0x71, 0x72, 0x73, 0x74, 0x75, 0x76, 0x77, 0x78, 0x79, 0x7A]

/-- Digits 36..61 of ZEROMQ: `A`..`Z` (R91). -/
def zeromqUpper : List Byte :=
  [0x41, 0x42, 0x43, 0x44, 0x45, 0x46, 0x47, 0x48, 0x49, 0x4A, 0x4B, 0x4C, 0x4D,
   0x4E, 0x4F, 0x50, 0x51, 0x52, 0x53, 0x54, 0x55, 0x56, 0x57, 0x58, 0x59, 0x5A]

/-- Digits 62..84 of ZEROMQ: the punctuation, in the listing's order (R91, assumption log 13). -/
def zeromqPunct : List Byte :=
  [0x2E, 0x2D, 0x3A, 0x2B, 0x3D, 0x5E, 0x21, 0x2F, 0x2A, 0x3F, 0x26, 0x3C,
   0x3E, 0x28, 0x29, 0x5B, 0x5D, 0x7B, 0x7D, 0x40, 0x25, 0x24, 0x23]

/-- `ENC_ROM[ZEROMQ]` (30_encoding.md R91). -/
def zeromqRom : Rom := ⟨⟨zeromqLow ++ zeromqUpper ++ zeromqPunct⟩, by decide⟩

/-- The encoding ROM a TSEL value selects: 0 STANDARD, 1 ZEROMQ, 2 CUSTOM where the build has it; a value that names no
image gives none (10_state.md R34, R41, 30_encoding.md R92). -/
def romOf (b : Build) (tsel : BitVec 2) : Option Rom :=
  match tsel.toNat with
  | 0 => some standardRom
  | 1 => some zeromqRom
  | 2 => b.custom.map CustomTable.rom
  | _ => none

/-- `ENC_ROM[t][d]` (00_scope.md R10). The index is a digit, so 85..127 are never formed (20_memory.md R61). -/
def encRom (rom : Rom) (d : Fin 85) : Byte := rom[d]

/-- `DEC_ROM[t][sym]` (10_state.md R42): the digit whose entry is `sym`, or `none` for ABSENT. -/
def decRom (rom : Rom) (sym : Byte) : Option (Fin 85) :=
  (List.finRange 85).find? fun d => encRom rom d == sym

/-- The zero shortcut symbol `z`, the same for every table (30_encoding.md R95, assumption log 14). -/
def zSym : Byte := 0x7A

/-- The space shortcut symbol `y`, the same for every table (30_encoding.md R95, assumption log 14). -/
def ySym : Byte := 0x79

end Sys2Proof.Machine
end

