-- ==== Sys2Proof/Machine/Ops.lean ====
section
/-! DEFINITION. The operations the meanings share: building a response word and its fields (30_encoding.md R86), answering
a command, ILLEGAL (60_exceptions.md R220), the radix converter (40_encoder.md R120), the writes of ACC and DCNT, and
reset (70_reset_and_hazards.md R250). The block has no trap entry and no trap return (60_exceptions.md R228, R229):
`State.raiseIllegal` is the one shared operation that stands in their place. -/

namespace Sys2Proof.Machine

/-- The result codes the block produces (30_encoding.md R86, R87). -/
inductive ResultCode where
  | ok
  | illegal
deriving DecidableEq, Repr

/-- RC: 0x0 OK, 0x1 ILLEGAL (30_encoding.md R86). -/
def ResultCode.code : ResultCode → BitVec 4
  | .ok => 0x0
  | .illegal => 0x1

/-- BYTES: byte `j` of the sequence in `BYTES[39-8j : 32-8j]`, zero beyond its length (30_encoding.md R86, R89). -/
def packBytes (seq : List Byte) : BitVec 40 :=
  seq.getD 0 0 ++ seq.getD 1 0 ++ seq.getD 2 0 ++ seq.getD 3 0 ++ seq.getD 4 0

/-- `RW = {rc[3:0], ovf[0], len(seq)[2:0], seq padded with zero bytes}` (30_encoding.md R86). -/
def respWord (rc : ResultCode) (ovf : Bool) (seq : List Byte) : ResponseWord :=
  rc.code ++ BitVec.ofBool ovf ++ BitVec.ofNat 3 seq.length ++ packBytes seq

/-- `RC = RW[47:44]` (30_encoding.md R86). -/
def rcOf (r : ResponseWord) : BitVec 4 := r.extractLsb' 44 4

/-- `OVF = RW[43]` (30_encoding.md R86). -/
def ovfOf (r : ResponseWord) : Bool := r.getLsbD 43

/-- `CNT = RW[42:40]` (30_encoding.md R86). -/
def cntOf (r : ResponseWord) : Nat := (r.extractLsb' 40 3).toNat

/-- Byte `j` of BYTES: `BYTES[39-8j : 32-8j]` (30_encoding.md R86). -/
def byteOf (r : ResponseWord) (j : Nat) : Byte := r.extractLsb' (32 - 8 * j) 8

/-- The valid bytes of a response: the first CNT bytes of BYTES (30_encoding.md R86, R89). -/
def dataBytes (r : ResponseWord) : List Byte := (List.range (cntOf r)).map (byteOf r)

/-- `respond(rc, ovf, seq)`: the response of the current command joins RQ (00_scope.md R10, 10_state.md R44). -/
def State.respond (s : State) (rc : ResultCode) (ovf : Bool) (seq : List Byte) : State :=
  { s with rq := s.rq ++ [respWord rc ovf seq] }

/-- `raise ILLEGAL`: `respond(ILLEGAL, 0, [])` with no state written (00_scope.md R10, 60_exceptions.md R220). -/
def State.raiseIllegal (s : State) : State := s.respond .illegal false []

/-- The write of ACC and DCNT (10_state.md R32). A value is reduced to the register's width: assumption log 12. -/
def State.setDigits (s : State) (acc dcnt : Nat) : State :=
  { s with acc := BitVec.ofNat 32 acc, dcnt := BitVec.ofNat 3 dcnt }

/-- `ACC <- 0; DCNT <- 0` (41_decoder.md R154, R160, 42_control.md R182). -/
def State.clearDigits (s : State) : State := s.setDigits 0 0

/-- The write of both CFG fields (42_control.md R180). -/
def State.setCfg (s : State) (tsel : BitVec 2) (gs : BitVec 1) : State := { s with cfg := cfgWord tsel gs }

/-- Digit `i` of a 32-bit value: `(W div 85**(4-i)) mod 85` (40_encoder.md R120). -/
def digit (w : BitVec 32) (i : Nat) : Fin 85 := Fin.ofNat 85 (w.toNat / 85 ^ (4 - i))

/-- `digits5(W)`, most significant digit first (40_encoder.md R120). -/
def digits5 (w : BitVec 32) : List (Fin 85) := [digit w 0, digit w 1, digit w 2, digit w 3, digit w 4]

/-- The truncated expansion: the first `k` symbols of W's five digits through the active encoding ROM
(40_encoder.md R122, R125 to R127, 10_state.md R43). -/
def respondSymbols (b : Build) (w : BitVec 32) (k : Nat) (s : State) : Host.Outcome State Fault Refusal :=
  match romOf b s.tsel with
  | some rom => .next (s.respond .ok false ((digits5 w).take k |>.map (encRom rom)))
  | none => .fault .noRomImage

/-- The four cases of the decoder's input classifier (41_decoder.md R151 to R156). -/
inductive SymbolClass where
  | zeroShortcut
  | spaceShortcut
  | digit (d : Fin 85)
  | ignorable
deriving DecidableEq, Repr

/-- The class of a byte in a table, by the priority order of 41_decoder.md R156. -/
def classify (rom : Rom) (sym : Byte) : SymbolClass :=
  if sym = zSym then .zeroShortcut
  else if sym = ySym then .spaceShortcut
  else match decRom rom sym with
    | some d => .digit d
    | none => .ignorable

/-- Answering a 5-digit value V: OVF = (V >= 2**32) and the first `k` bytes of V mod 2**32, and the group is closed
(41_decoder.md R154, R160, R161). -/
def State.closeGroup (s : State) (v k : Nat) : State :=
  (s.respond .ok (overflow v) (bytesOf (BitVec.ofNat 32 v) k)).clearDigits

/-- Taking one digit: cases 3a and 3b (41_decoder.md R153, R154). DCNT is 0..4 in every reachable state (10_state.md
R39). -/
def State.takeDigit (s : State) (d : Fin 85) : Host.Outcome State Fault Refusal :=
  if s.dcnt.toNat < 4 then
    .next ((s.setDigits (s.acc.toNat * 85 + d.val) (s.dcnt.toNat + 1)).respond .ok false [])
  else if s.dcnt.toNat = 4 then .next (s.closeGroup (s.acc.toNat * 85 + d.val) 4)
  else .fault .digitCountOutOfRange

/-- The reset of every state element (10_state.md R45, 70_reset_and_hazards.md R250). Responses not taken are discarded;
what the host has taken and will drive is the host's. -/
def State.applyReset (s : State) : State :=
  { s with cfg := 0, acc := 0, dcnt := 0, rq := [], phase := .live }

end Sys2Proof.Machine
end

