-- ==== Sys2Proof/Machine/Control.lean ====
section
/-! DEFINITION. The control family CFG, CLR and STAT (42_control.md R180 to R183). -/

namespace Sys2Proof.Machine

/-- The state after CFG in a build (42_control.md R180): ILLEGAL with no field changed where the image does not exist
(R181), else both fields written. -/
def cfgOn (b : Build) (tsel : BitVec 2) (gs : BitVec 1) (s : State) : State :=
  if tselExists b tsel then (s.setCfg tsel gs).respond .ok false [] else s.raiseIllegal

/-- STAT's three bytes: `{CFG.TSEL, CFG.GS}`, DCNT and the capability bit, each zero-extended to 8 bits (R183). -/
def statBytes (b : Build) (s : State) : List Byte :=
  [(s.tsel ++ s.gs).setWidth 8, s.dcnt.setWidth 8, if b.hasCustom then 1 else 0]

/-- The state after STAT in a build (42_control.md R183). -/
def statOn (b : Build) (s : State) : State := s.respond .ok false (statBytes b s)

/-- CFG. -/
def execCfg (tsel : BitVec 2) (gs : BitVec 1) (s : State) : Host.Outcome State Fault Refusal :=
  .next (cfgOn Config.build tsel gs s)

/-- CLR (42_control.md R182). -/
def execClr (s : State) : Host.Outcome State Fault Refusal := .next (s.clearDigits.respond .ok false [])

/-- STAT. -/
def execStat (s : State) : Host.Outcome State Fault Refusal := .next (statOn Config.build s)

end Sys2Proof.Machine
end

