-- ==== Sys2Proof/Machine/Decoder.lean ====
section
/-! DEFINITION. The decoder family DEC and DFL (41_decoder.md R150, R160). -/

namespace Sys2Proof.Machine

/-- DEC in a build (41_decoder.md R150). The two shortcuts are taken before any ROM is read (R156), so the case of a
TSEL that names no image (assumption log 10) stands after them. -/
def decOn (b : Build) (sym : Byte) (s : State) : Host.Outcome State Fault Refusal :=
  if sym = zSym then .next (s.respond .ok false [0x00, 0x00, 0x00, 0x00])
  else if sym = ySym then .next (s.respond .ok false [0x20, 0x20, 0x20, 0x20])
  else match romOf b s.tsel with
    | none => .fault .noRomImage
    | some rom =>
      match decRom rom sym with
      | some d => s.takeDigit d
      | none => .next (s.respond .ok false [])

/-- The padded value of DFL: `ACC * 85**(5-n) + (85**(5-n) - 1)` (41_decoder.md R160). -/
def paddedValue (acc n : Nat) : Nat := acc * 85 ^ (5 - n) + (85 ^ (5 - n) - 1)

/-- DEC. -/
def execDec (sym : Byte) (s : State) : Host.Outcome State Fault Refusal := decOn Config.build sym s

/-- DFL (41_decoder.md R160, R161). It reads no ROM and not CFG (10_state.md R43). -/
def execDfl (s : State) : Host.Outcome State Fault Refusal :=
  if s.dcnt.toNat = 0 then .next (s.respond .ok false []).clearDigits
  else if s.dcnt.toNat ≤ 4 then .next (s.closeGroup (paddedValue s.acc.toNat s.dcnt.toNat) (s.dcnt.toNat - 1))
  else .fault .digitCountOutOfRange

end Sys2Proof.Machine
end

