-- ==== Sys2Proof/Machine/Encoder.lean ====
section
/-! DEFINITION. The encoder family ENC4, ENC3, ENC2, ENC1 (40_encoder.md R122, R125, R126, R127). Each command is given
for any build and then for this one. The encoder writes no register (R130). -/

namespace Sys2Proof.Machine

/-- ENC4 in a build (40_encoder.md R122). -/
def enc4On (b : Build) (b0 b1 b2 b3 : Byte) (s : State) : Host.Outcome State Fault Refusal :=
  if zdet 4 (groupValue4 b0 b1 b2 b3) then .next (s.respond .ok false [zSym])
  else if sdet 4 s.gs (groupValue4 b0 b1 b2 b3) then .next (s.respond .ok false [ySym])
  else respondSymbols b (groupValue4 b0 b1 b2 b3) 5 s

/-- ENC3 in a build (40_encoder.md R125). -/
def enc3On (b : Build) (b0 b1 b2 : Byte) (s : State) : Host.Outcome State Fault Refusal :=
  respondSymbols b (groupValue3 b0 b1 b2) 4 s

/-- ENC2 in a build (40_encoder.md R126). -/
def enc2On (b : Build) (b0 b1 : Byte) (s : State) : Host.Outcome State Fault Refusal :=
  respondSymbols b (groupValue2 b0 b1) 3 s

/-- ENC1 in a build (40_encoder.md R127). -/
def enc1On (b : Build) (b0 : Byte) (s : State) : Host.Outcome State Fault Refusal :=
  respondSymbols b (groupValue1 b0) 2 s

/-- ENC4. -/
def execEnc4 (b0 b1 b2 b3 : Byte) (s : State) : Host.Outcome State Fault Refusal := enc4On Config.build b0 b1 b2 b3 s

/-- ENC3. -/
def execEnc3 (b0 b1 b2 : Byte) (s : State) : Host.Outcome State Fault Refusal := enc3On Config.build b0 b1 b2 s

/-- ENC2. -/
def execEnc2 (b0 b1 : Byte) (s : State) : Host.Outcome State Fault Refusal := enc2On Config.build b0 b1 s

/-- ENC1. -/
def execEnc1 (b0 : Byte) (s : State) : Host.Outcome State Fault Refusal := enc1On Config.build b0 s

end Sys2Proof.Machine
end

