-- ==== Sys2Proof/Machine/Dispatch.lean ====
section
/-! DEFINITION. The meaning of each instruction once its command word is accepted: one arm per constructor. -/

namespace Sys2Proof.Machine

def exec (i : Instr) (s : State) : Host.Outcome State Fault Refusal :=
  match i with
  | .enc1 b0 => Sys2Proof.Machine.execEnc1 b0 s
  | .enc2 b0 b1 => Sys2Proof.Machine.execEnc2 b0 b1 s
  | .enc3 b0 b1 b2 => Sys2Proof.Machine.execEnc3 b0 b1 b2 s
  | .enc4 b0 b1 b2 b3 => Sys2Proof.Machine.execEnc4 b0 b1 b2 b3 s
  | .dec sym => Sys2Proof.Machine.execDec sym s
  | .dfl => Sys2Proof.Machine.execDfl s
  | .cfg tsel gs => Sys2Proof.Machine.execCfg tsel gs s
  | .clr => Sys2Proof.Machine.execClr s
  | .stat => Sys2Proof.Machine.execStat s

end Sys2Proof.Machine
end

