-- ==== Sys2Proof/Machine/Ports.lean ====
section
/-! DEFINITION. The ports (70_reset_and_hazards.md R271): the outputs as functions of the state, and what one rising edge
of `clk` does: reset (R250), acceptance of a command word, and the host's taking of a response. The meaning of a decoded
command is an argument, so that the step supplies it. -/

namespace Sys2Proof.Machine

/-- RQ has room for one more response: `length < spare + 1` (10_state.md R44). Written on the queue first, so that an
empty queue has room whatever `RESP_DEPTH` is. -/
def hasRoom : List ResponseWord → Nat → Bool
  | [], _ => true
  | _ :: _, 0 => false
  | _ :: rest, spare + 1 => hasRoom rest spare

/-- `cmd_ready`: 0 while `rst` is 1 (R250), and 0 while RQ holds `RESP_DEPTH` responses (R271). -/
def cmdReady (b : Build) (rst : Bool) (s : State) : Bool := !rst && hasRoom s.rq b.spareDepth

/-- `rsp_valid`: 0 while `rst` is 1 (R250), else 1 while RQ holds a response (R271, time abstracted by R270). -/
def rspValid (rst : Bool) (s : State) : Bool := !rst && !s.rq.isEmpty

/-- `rsp_word`: the oldest response of RQ (10_state.md R44). No value is given while there is none. -/
def rspWord (s : State) : Option ResponseWord := s.rq.head?

/-- The host takes the oldest response where one is presented and `rsp_ready` is 1 (R271). -/
def State.serveResponse (ready : Bool) (s : State) : State :=
  match ready, s.rq with
  | true, r :: rest => { s with rq := rest, taken := s.taken ++ [r] }
  | _, _ => s

/-- The command accepted at an edge: `cmd_valid` and `cmd_ready` both 1 (R271). -/
def accepted (b : Build) (e : PortEdge) (s : State) : Option CommandWord :=
  match cmdReady b e.rst s with
  | true => e.cmd
  | false => none

/-- An accepted word: the meaning of the command it spells, or ILLEGAL where it spells none (60_exceptions.md R220,
R225). -/
def runWord (meaning : Instr → State → Host.Outcome State Fault Refusal) (w : CommandWord) (s : State) :
    Host.Outcome State Fault Refusal :=
  match decode w with
  | .ok i => meaning i s
  | .error _ => .next s.raiseIllegal

/-- An edge without reset after the first reset: readiness is that before the edge; the response is taken and the
command accepted at the same edge, and the command's response joins RQ behind (assumption log 4). -/
def liveEdge (b : Build) (meaning : Instr → State → Host.Outcome State Fault Refusal) (e : PortEdge) (s : State) :
    Host.Outcome State Fault Refusal :=
  match accepted b e s with
  | none => .next (s.serveResponse e.rspReady)
  | some w => runWord meaning w (s.serveResponse e.rspReady)

/-- An edge without reset before the first reset (R252): a command presented then has no meaning. -/
def preResetEdge (e : PortEdge) (s : State) : Host.Outcome State Fault Refusal :=
  match e.cmd with
  | none => .next s
  | some _ => .refused .commandBeforeReset

/-- One rising edge with the given inputs (R250, R252, R271). -/
def onEdge (b : Build) (meaning : Instr → State → Host.Outcome State Fault Refusal) (e : PortEdge) (s : State) :
    Host.Outcome State Fault Refusal :=
  match e.rst with
  | true => .next s.applyReset
  | false =>
    match s.phase with
    | .preReset => preResetEdge e s
    | .live => liveEdge b meaning e s

/-- The next edge of the input trace. With nothing more to drive the block is idle and its state persists
(60_exceptions.md R238, assumption log 8). -/
def clock (b : Build) (meaning : Instr → State → Host.Outcome State Fault Refusal) (s : State) :
    Host.Outcome State Fault Refusal :=
  match s.pins with
  | [] => .next s
  | e :: rest => onEdge b meaning e { s with pins := rest }

/-- The host presents a command word at the next edge and takes no response there. -/
def presentEdge (w : CommandWord) : PortEdge := { rst := false, cmd := some w, rspReady := false }

/-- The host presents no command at the next edge and is ready for a response. -/
def takeEdge : PortEdge := { rst := false, cmd := none, rspReady := true }

/-- `rst` is 1 at the next edge. -/
def resetEdge : PortEdge := { rst := true, cmd := none, rspReady := false }

/-- The state in which the host presents `w` at the next edge (assumption log 9). -/
def State.present (s : State) (w : CommandWord) : State := { s with pins := presentEdge w :: s.pins }

end Sys2Proof.Machine
end

