-- ==== Sys2Proof/Machine/Step.lean ====
section
/-! DEFINITION. One step of the machine: one rising edge of `clk` (70_reset_and_hazards.md R271), at which at most one
command is accepted and executed (00_scope.md R11, R12). -/

namespace Sys2Proof.Machine

/-- One rising edge, with this build's parameters and `exec` as the meaning of an accepted command. -/
def step (s : State) : Host.Outcome State Fault Refusal := clock Config.build exec s

/-- `s` with the opcode-table word `w` presented at the command port at the very next edge. -/
def State.withFetchWord (s : State) (nbits w : Nat) : State := s.present (tableWord nbits w)

end Sys2Proof.Machine
end

