-- ==== Sys2Proof/Machine/Assembler.lean ====
section
/-! DEFINITION. The assembler's lines and what each emits (30_encoding.md R99, R100): the nine mnemonics with their operand
forms, the raw form `.word`, and the pseudo-instructions DECS, ENCM and DECM. A line is data, not text (assumption
log 22). A line whose operands do not fit emits nothing. ENCM with numbers is the model's choice (log 22). -/

namespace Sys2Proof.Machine

/-- The byte operands of a line: numbers, or one quoted string (R99). -/
inductive ByteArg where
  | bytes (values : List Nat)
  | quoted (chars : List Char)
deriving DecidableEq, Repr

/-- The `tsel` operand of CFG: a table's name or a number (R99). -/
inductive TselArg where
  | STANDARD
  | ZEROMQ
  | CUSTOM
  | number (n : Nat)
deriving DecidableEq, Repr

/-- One line of assembler (R99, R100). -/
inductive AsmLine where
  /-- `ENCn`, the count written in the mnemonic. -/
  | enc (n : Nat) (arg : ByteArg)
  | dec (arg : ByteArg)
  | cfg (tsel : TselArg) (gs : Nat)
  | dfl
  | clr
  | stat
  /-- `.word`, any 40-bit command word, the ILLEGAL ones included. -/
  | word (w : Nat)
  | decs (text : List Char)
  /-- `ENCM`. R100 writes it with a quoted operand only; the form with numbers is DESIGN CHOICE (assumption log 22). -/
  | encm (arg : ByteArg)
  | decm (text : List Char)
deriving DecidableEq, Repr

/-- A number that is a byte. -/
def byteValue (n : Nat) : Option Byte := if n < 256 then some (BitVec.ofNat 8 n) else none

/-- A character read as its US-ASCII byte (R99, assumption log 14). -/
def asciiByte (c : Char) : Option Byte := if c.toNat < 128 then some (BitVec.ofNat 8 c.toNat) else none

/-- All of a list's values, or none where one is missing. -/
def allSome : List (Option Byte) → Option (List Byte)
  | [] => some []
  | none :: _ => none
  | some x :: rest => (allSome rest).map (x :: ·)

/-- The bytes of an operand. -/
def ByteArg.values? : ByteArg → Option (List Byte)
  | .bytes values => allSome (values.map byteValue)
  | .quoted chars => allSome (chars.map asciiByte)

/-- The TSEL value of an operand: two bits (R83). -/
def TselArg.value? : TselArg → Option (BitVec 2)
  | .STANDARD => some 0
  | .ZEROMQ => some 1
  | .CUSTOM => some 2
  | .number n => if n < 4 then some (BitVec.ofNat 2 n) else none

/-- The encode command of a group of 1 to 4 bytes (R82). -/
def encInstr : List Byte → Option Instr
  | [b0] => some (.enc1 b0)
  | [b0, b1] => some (.enc2 b0 b1)
  | [b0, b1, b2] => some (.enc3 b0 b1 b2)
  | [b0, b1, b2, b3] => some (.enc4 b0 b1 b2 b3)
  | _ => none

/-- `ENCM`: ENC4 for each full group, then ENCn for a final group of 1 to 3 bytes (R100, 47_host_sequences.md R200). -/
def encmInstrs : List Byte → List Instr
  | b0 :: b1 :: b2 :: b3 :: rest => .enc4 b0 b1 b2 b3 :: encmInstrs rest
  | [b0, b1, b2] => [.enc3 b0 b1 b2]
  | [b0, b1] => [.enc2 b0 b1]
  | [b0] => [.enc1 b0]
  | [] => []

/-- `DECS`: one DEC per byte of the text, in order (R100). -/
def decsInstrs (text : List Byte) : List Instr := text.map .dec

/-- `DECM`: DECS followed by DFL (R100). -/
def decmInstrs (text : List Byte) : List Instr := decsInstrs text ++ [.dfl]

/-- The command words a line emits, or none where its operands do not fit (R99, R100). DESIGN CHOICE (assumption log 22):
ENCM takes numbers too, which R100 does not write, and emits the encode commands of those bytes. -/
def assemble : AsmLine → Option (List CommandWord)
  | .enc n arg =>
    arg.values?.bind fun bs => if bs.length = n then (encInstr bs).map fun i => [encode i] else none
  | .dec arg =>
    arg.values?.bind fun bs =>
      match bs with
      | [b] => some [encode (.dec b)]
      | _ => none
  | .cfg t gs => if gs < 2 then t.value?.map fun ts => [encode (.cfg ts (BitVec.ofNat 1 gs))] else none
  | .dfl => some [encode .dfl]
  | .clr => some [encode .clr]
  | .stat => some [encode .stat]
  | .word w => if w < 2 ^ 40 then some [BitVec.ofNat 40 w] else none
  | .decs text => (ByteArg.quoted text).values?.map fun bs => (decsInstrs bs).map encode
  | .encm arg => arg.values?.map fun bs => (encmInstrs bs).map encode
  | .decm text => (ByteArg.quoted text).values?.map fun bs => (decmInstrs bs).map encode

end Sys2Proof.Machine
end

