-- ==== Sys2Proof/Machine/HostSequences.lean ====
section
/-! DEFINITION. The host's sequences over the block (47_host_sequences.md R200 to R209): a session at the ports,
ENCODE_MSG, DECODE_MSG with the delimiters, abandoning a decode call, a per-call override of CFG, and the named variants.
The host takes each response before it presents the next command (70_reset_and_hazards.md R264, assumption log 18). -/

namespace Sys2Proof.Machine

/-- START, the marker `<~` (30_encoding.md R97). -/
def startMarker : List Byte := [0x3C, 0x7E]

/-- END, the marker `~>` (30_encoding.md R97). -/
def endMarker : List Byte := [0x7E, 0x3E]

/-- The edges of a session: each command presented, then its response taken. -/
def session : List Instr → List PortEdge
  | [] => []
  | i :: rest => presentEdge (encode i) :: takeEdge :: session rest

/-- `k` steps, stopping at the first fault or refusal. -/
def runSteps : Nat → State → Host.Outcome State Fault Refusal
  | 0, s => .next s
  | k + 1, s =>
    match step s with
    | .next s' => runSteps k s'
    | .fault r => .fault r
    | .refused r => .refused r

/-- The block driven through a session of commands. -/
def runSession (is : List Instr) (s : State) : Host.Outcome State Fault Refusal :=
  runSteps (2 * is.length) { s with pins := session is }

/-- What a call gives the host. -/
inductive HostResult where
  /-- The bytes collected and the block's state after the call. -/
  | done (out : List Byte) (s : State)
  /-- DelimiterMismatchError, with no partial result (47_host_sequences.md R206). -/
  | delimiterMismatch (s : State)
  /-- The block stopped inside the call: never from a reachable state. -/
  | blockStopped
deriving DecidableEq, Repr

/-- The bytes of the responses, in order (47_host_sequences.md R200, 20_memory.md R64). -/
def collect (rs : List ResponseWord) : List Byte := rs.flatMap dataBytes

/-- A session whose responses' bytes the host collects. -/
def issue (is : List Instr) (s : State) : HostResult :=
  match runSession is s with
  | .next t => .done (collect (t.taken.drop s.taken.length)) t
  | .fault _ => .blockStopped
  | .refused _ => .blockStopped

/-- Text wrapped in the markers where `delimiter` is true (47_host_sequences.md R200). -/
def wrap (delimiter : Bool) (text : List Byte) : List Byte :=
  if delimiter then startMarker ++ text ++ endMarker else text

/-- ENCODE_MSG (47_host_sequences.md R200). -/
def encodeMsg (data : List Byte) (delimiter : Bool) (s : State) : HostResult :=
  match issue (encmInstrs data) s with
  | .done out t => .done (wrap delimiter out) t
  | r => r

/-- Steps 1 and 2 of DECODE_MSG: the body of a text, or none for DelimiterMismatchError (47_host_sequences.md R204). -/
def stripMarkers (text : List Byte) : Option (List Byte) :=
  if text.take 2 = startMarker then
    if 4 ≤ text.length ∧ text.drop (text.length - 2) = endMarker then some ((text.take (text.length - 2)).drop 2)
    else none
  else some text

/-- DECODE_MSG (47_host_sequences.md R204). -/
def decodeMsg (text : List Byte) (s : State) : HostResult :=
  match stripMarkers text with
  | some body => issue (decmInstrs body) s
  | none => .delimiterMismatch s

/-- A host that finds the mismatch after some DEC commands discards every byte and issues CLR
(47_host_sequences.md R206). -/
def abandonDecode (begun : List Byte) (s : State) : HostResult :=
  match issue (decsInstrs begun ++ [.clr]) s with
  | .done _ t => .delimiterMismatch t
  | r => r

/-- The CFG command that writes back what byte 0 of a STAT answer holds (42_control.md R183). -/
def restoreCfg (stat0 : Byte) : Instr := .cfg (stat0.extractLsb' 1 2) (stat0.extractLsb' 0 1)

/-- A call under a per-call override: STAT reads the previous value, CFG sets the override, the call runs, CFG writes the
previous value back (47_host_sequences.md R208). DESIGN CHOICE (assumption log 23): the three are issued whatever the call
is, also around a call that issues no command (an empty encode, R201; a mismatch found before the first DEC, R204), where
R208's "before the call's first command" names no such point. -/
def withOverride (tsel : BitVec 2) (gs : BitVec 1) (call : State → HostResult) (s : State) : HostResult :=
  match issue [.stat, .cfg tsel gs] s with
  | .done bytes s1 =>
    match call s1 with
    | .done out s2 =>
      match issue [restoreCfg (bytes.getD 0 0)] s2 with
      | .done _ s3 => .done out s3
      | r => r
    | .delimiterMismatch s2 =>
      match issue [restoreCfg (bytes.getD 0 0)] s2 with
      | .done _ s3 => .delimiterMismatch s3
      | r => r
    | .blockStopped => .blockStopped
  | r => r

/-- The symbol-table variants the host offers (00_scope.md R3, 47_host_sequences.md R203). -/
inductive Variant where
  | standard
  | delimiter
  | zeromq
deriving DecidableEq, Repr

/-- The CFG command that selects a variant: GS is 0 in each (47_host_sequences.md R203). -/
def Variant.configure : Variant → Instr
  | .standard => .cfg 0 0
  | .delimiter => .cfg 0 0
  | .zeromq => .cfg 1 0

/-- Whether a variant wraps its text where the call does not say (47_host_sequences.md R203). -/
def Variant.wraps : Variant → Bool
  | .standard => false
  | .delimiter => true
  | .zeromq => false

/-- ENCODE_MSG in a variant, with a per-call `delimiter` where one is given (47_host_sequences.md R203). -/
def encodeAs (v : Variant) (delimiter : Option Bool) (data : List Byte) (s : State) : HostResult :=
  match issue [v.configure] s with
  | .done _ t => encodeMsg data (delimiter.getD v.wraps) t
  | r => r

/-- Z of 47_host_sequences.md R202: how many of a message's full groups take a shortcut, with GS as given
(40_encoder.md R123, R124). -/
def shortcutGroups (gs : BitVec 1) : List Byte → Nat
  | b0 :: b1 :: b2 :: b3 :: rest =>
    (if zdet 4 (groupValue4 b0 b1 b2 b3) || sdet 4 gs (groupValue4 b0 b1 b2 b3) then 1 else 0) + shortcutGroups gs rest
  | _ => 0

end Sys2Proof.Machine
end

