-- ==== Sys2Proof/Safety.lean ====
section
/-! DEFINITION. What a good state and a good response are, in the terms the claims use: the facts the spec gives of every
reachable state (10_state.md R35, R38, R39, R44) and of every response word (30_encoding.md R87, R88, R89). -/

namespace Sys2Proof.Machine

/-- A response word the block can produce: RC is 0 or 1, an ILLEGAL response is exactly `0x100000000000` (R87), CNT is at
most 5 (R88), and BYTES is zero beyond CNT (R89). -/
structure GoodResponse (r : ResponseWord) : Prop where
  rc      : rcOf r = 0x0 ∨ r = 0x100000000000
  cnt     : cntOf r ≤ 5
  padding : ∀ j, cntOf r ≤ j → j < 5 → byteOf r j = 0

/-- What every reachable state satisfies. -/
structure Inv (b : Build) (s : State) : Prop where
  /-- CFG.TSEL names a ROM image (10_state.md R35). -/
  tsel   : tselExists b s.tsel = true
  /-- DCNT is 0 to 4 (10_state.md R39). -/
  dcnt   : s.dcnt.toNat ≤ 4
  /-- `ACC < 85**DCNT` (10_state.md R38). -/
  acc    : s.acc.toNat < 85 ^ s.dcnt.toNat
  /-- RQ holds at most `RESP_DEPTH` words (10_state.md R44). -/
  depth  : s.rq.length ≤ b.respDepth
  /-- Every response in RQ is one the block can produce (30_encoding.md R87 to R89). -/
  queued : ∀ r ∈ s.rq, GoodResponse r

/-- The words that answer ILLEGAL in a build, as 60_exceptions.md R220 lists them. -/
def IllegalWord (b : Build) (w : CommandWord) : Prop :=
  (opField w).toNat = 0 ∨ 7 ≤ (opField w).toNat ∨
  ((opField w).toNat = 1 ∧ ((nField w).toNat = 0 ∨ 5 ≤ (nField w).toNat)) ∨
  ((opField w).toNat = 4 ∧ ((tselField w).toNat = 3 ∨ ((tselField w).toNat = 2 ∧ b.hasCustom = false)))

/-- Commands executed one after the other (20_memory.md R70), without the ports. -/
def execAll : List Instr → State → Host.Outcome State Fault Refusal
  | [], s => .next s
  | i :: rest, s =>
    match exec i s with
    | .next t => execAll rest t
    | .fault r => .fault r
    | .refused r => .refused r

/-- The encoder family. -/
def encodes : Instr → Bool
  | .enc1 _ => true
  | .enc2 _ _ => true
  | .enc3 _ _ _ => true
  | .enc4 _ _ _ _ => true
  | .dec _ => false
  | .dfl => false
  | .cfg _ _ => false
  | .clr => false
  | .stat => false

/-- The block after its first reset, with every response taken: the host may begin a call (70_reset_and_hazards.md R253,
R264). -/
structure Idle (b : Build) (s : State) : Prop where
  inv  : Inv b s
  live : s.phase = .live
  rq   : s.rq = []

end Sys2Proof.Machine
end

