-- ==== Sys2Proof/Certificates/Slice0/Obligations.lean ====
section
/-! DEFINITION. The statements for the provers, one `def Obligations.<Name> : Prop` each, family by family. Titles, rules
and quotes stand in OBLIGATIONS.json. -/

open Sys2Proof Sys2Proof.Machine

/-! ## Reset, boot and the ports -/

/-- 10_state.md R45, 70_reset_and_hazards.md R251: the state after reset, and the ROM images a build holds, which no
state changes. -/
def Obligations.ResetStateHoldsTheSpecifiedValues : Prop :=
  State.reset.tsel = 0 ∧ State.reset.gs = 0 ∧ State.reset.acc = 0 ∧ State.reset.dcnt = 0 ∧ State.reset.rq = [] ∧
  cmdReady Config.build false State.reset = true ∧
  romOf Config.build State.reset.tsel = some standardRom ∧ romOf Config.build 1 = some zeromqRom ∧
  romOf Config.build 2 = Config.build.custom.map CustomTable.rom

/-- 70_reset_and_hazards.md R250: an edge with `rst` = 1, from any state, the one before the first reset included. The
responses not taken are discarded, and nothing else of the state changes but the edge having passed. What it leaves in the
model's own fields is the model's choice: the edges to come (assumption log 5), what the host has taken (log 6), and the
phase, which is `live` afterwards (log 7). -/
def Obligations.ResetEdgeResetsEveryStateElement : Prop :=
  ∀ (s : State) (e : PortEdge) (later : List PortEdge), s.pins = e :: later → e.rst = true →
    step s = .next { s with cfg := 0, acc := 0, dcnt := 0, rq := [], phase := .live, pins := later } ∧
    cmdReady Config.build e.rst s = false ∧ rspValid e.rst s = false

/-- 70_reset_and_hazards.md R252: a command presented before the first reset is refused. That the phase is a field of State
is the model's choice (assumption log 7). -/
def Obligations.CommandBeforeFirstResetIsRefused : Prop :=
  ∀ (s : State) (e : PortEdge) (later : List PortEdge) (w : CommandWord),
    s.phase = .preReset → s.pins = e :: later → e.rst = false → e.cmd = some w →
    step s = .refused .commandBeforeReset

/-- A step runs the decoded command: at an edge without reset, where a command word is presented and RQ has room, the step
is `exec` of the command the word spells, in the state whose edge has passed and whose oldest response the host has taken
if it was ready (the order within one edge is the model's choice, assumption log 4). In particular a step on a state with
a word placed by `withFetchWord` is `exec` at that state (log 9). -/
def Obligations.StepRunsTheDecodedCommand : Prop :=
  (∀ (s : State) (e : PortEdge) (later : List PortEdge) (w : CommandWord) (i : Instr),
    s.phase = .live → s.pins = e :: later → e.rst = false → e.cmd = some w →
    s.rq.length < Config.build.respDepth → decode w = .ok i →
    step s = exec i
      { s with
        pins := later
        rq := if e.rspReady then s.rq.drop 1 else s.rq
        taken := if e.rspReady then s.taken ++ s.rq.take 1 else s.taken }) ∧
  (∀ (s : State) (nbits w : Nat) (i : Instr),
    s.phase = .live → s.rq.length < Config.build.respDepth → decodeTableWord nbits w = some i →
    step (s.withFetchWord nbits w) = exec i s)

/-- 10_state.md R44 (order and bound), 70_reset_and_hazards.md R271: at an edge without reset the queue grows by the new
command's response at its end, if a command is accepted, and loses its oldest response to the host, if the host is ready;
nothing is dropped or reordered, and RQ never holds more than `RESP_DEPTH`. Within one edge this is the model's choice:
readiness is judged before the edge, so a full queue accepts nothing although the host takes a response there, and the
response taken is the oldest one from before the edge (assumption log 4); the new response joins RQ at the accepting edge
(log 3). -/
def Obligations.ResponsesLeaveInOrderAndNoneIsDropped : Prop :=
  ∀ (s t : State) (e : PortEdge) (later : List PortEdge),
    s.phase = .live → s.pins = e :: later → e.rst = false → s.rq.length ≤ Config.build.respDepth → step s = .next t →
    t.taken = s.taken ++ (if e.rspReady then s.rq.take 1 else []) ∧
    (∃ new : List ResponseWord, t.taken ++ t.rq = s.taken ++ s.rq ++ new ∧
      new.length = if e.cmd.isSome ∧ s.rq.length < Config.build.respDepth then 1 else 0) ∧
    t.rq.length ≤ Config.build.respDepth

/-- 70_reset_and_hazards.md R264, R271: while RQ is full `cmd_ready` is 0, and the edge accepts no command: it only lets
the host take the oldest response. That readiness is judged before the edge is the model's choice (assumption log 4). -/
def Obligations.FullResponseQueueStallsCommands : Prop :=
  ∀ (s : State) (e : PortEdge) (later : List PortEdge),
    s.phase = .live → s.pins = e :: later → e.rst = false → Config.build.respDepth ≤ s.rq.length →
    cmdReady Config.build false s = false ∧
    step s = .next
      { s with
        pins := later
        rq := if e.rspReady then s.rq.drop 1 else s.rq
        taken := if e.rspReady then s.taken ++ s.rq.take 1 else s.taken }

/-- 70_reset_and_hazards.md R271: a response presented and not taken holds steady, whatever else the edge does. -/
def Obligations.UntakenResponseHoldsSteady : Prop :=
  ∀ (s t : State) (e : PortEdge) (later : List PortEdge) (r : ResponseWord),
    s.phase = .live → s.pins = e :: later → e.rst = false → e.rspReady = false →
    rspValid false s = true → rspWord s = some r → step s = .next t →
    rspValid false t = true ∧ rspWord t = some r

/-- 60_exceptions.md R238: without a command and without reset the block is idle and keeps its state. The second part, a
trace with no further edge, is the model's own convention (assumption log 8). -/
def Obligations.IdleBlockKeepsItsState : Prop :=
  (∀ (s : State) (e : PortEdge) (later : List PortEdge),
    s.pins = e :: later → e.rst = false → e.cmd = none → e.rspReady = false →
    step s = .next { s with pins := later }) ∧
  (∀ s : State, s.pins = [] → step s = .next s)

/-! ## Invariants and the outcomes of a word -/

/-- The reset state satisfies what every reachable state satisfies. -/
def Obligations.InvariantHoldsAtReset : Prop := Inv Config.build State.reset

/-- Every step keeps the invariant: TSEL names an image, DCNT is at most 4, `ACC < 85**DCNT`, RQ holds at most
`RESP_DEPTH` responses, and each of them is one the block can produce. -/
def Obligations.EveryStepKeepsTheInvariant : Prop :=
  ∀ s t : State, Inv Config.build s → step s = .next t → Inv Config.build t

/-- From a state that meets the invariant and has been reset, whatever the host drives, the step answers a next state:
no fault and no refusal. -/
def Obligations.ResetBlockNeverStops : Prop :=
  ∀ s : State, Inv Config.build s → s.phase = .live → ∃ t, step s = .next t ∧ t.phase = .live

/-- 60_exceptions.md R220: each of the listed words, accepted, is answered `0x100000000000`, and no state changes. -/
def Obligations.IllegalWordsAnswerIllegalAndChangeNothing : Prop :=
  ∀ (s : State) (w : CommandWord), IllegalWord Config.build w →
    s.phase = .live → s.rq.length < Config.build.respDepth →
    step (s.present w) = .next { s with rq := s.rq ++ [0x100000000000] }

/-- 60_exceptions.md R221: a word not listed in R220 is answered OK; OVF = 1 comes only from DEC and DFL. -/
def Obligations.EveryOtherWordAnswersOk : Prop :=
  ∀ (s : State) (w : CommandWord), ¬ IllegalWord Config.build w → Inv Config.build s →
    s.phase = .live → s.rq.length < Config.build.respDepth →
    ∃ t r, step (s.present w) = .next t ∧ t.rq = s.rq ++ [r] ∧ rcOf r = 0x0 ∧
      (ovfOf r = true → (opField w).toNat = 2 ∨ (opField w).toNat = 3)

/-- 00_scope.md R11, 47_host_sequences.md R210: a command's response and the registers it leaves are functions of CFG, ACC,
DCNT and the command alone, and it changes nothing else but RQ, to which it adds that one response. -/
def Obligations.AnswerDependsOnRegistersAndCommandAlone : Prop :=
  ∀ (i : Instr) (s u t : State), u.cfg = s.cfg → u.acc = s.acc → u.dcnt = s.dcnt → exec i s = .next t →
    ∃ r, t = { s with cfg := t.cfg, acc := t.acc, dcnt := t.dcnt, rq := s.rq ++ [r] } ∧
      exec i u = .next { u with cfg := t.cfg, acc := t.acc, dcnt := t.dcnt, rq := u.rq ++ [r] }

/-- 30_encoding.md R88: the range of CNT, command by command, and 0 for every word that is answered ILLEGAL. Every word
is answered in a state that meets the invariant. -/
def Obligations.ResponseCountsStayInTheirRange : Prop :=
  ∀ (w : CommandWord) (s : State), Inv Config.build s →
    ∃ t r, runWord exec w s = .next t ∧ t.rq = s.rq ++ [r] ∧ (rcOf r ≠ 0x0 → cntOf r = 0) ∧ cntOf r ≤ 5 ∧
      match decode w with
      | .error _ => rcOf r = 0x1
      | .ok (.enc4 _ _ _ _) => cntOf r = 1 ∨ cntOf r = 5
      | .ok (.enc3 _ _ _) => cntOf r = 4
      | .ok (.enc2 _ _) => cntOf r = 3
      | .ok (.enc1 _) => cntOf r = 2
      | .ok (.dec _) => cntOf r = 0 ∨ cntOf r = 4
      | .ok .dfl => cntOf r ≤ 3
      | .ok (.cfg _ _) => cntOf r = 0
      | .ok .clr => cntOf r = 0
      | .ok .stat => cntOf r = 3

/-- 30_encoding.md R87, R89: for every word, RC is 0 or 1, an ILLEGAL response has OVF, CNT and BYTES zero, and BYTES is
zero beyond CNT. -/
def Obligations.ResponseWordsAreWellFormed : Prop :=
  ∀ (w : CommandWord) (s t : State), runWord exec w s = .next t →
    ∃ r, t.rq = s.rq ++ [r] ∧ (rcOf r = 0x0 ∨ rcOf r = 0x1) ∧
      (rcOf r = 0x1 → ovfOf r = false ∧ cntOf r = 0 ∧ r.extractLsb' 0 40 = 0) ∧
      ∀ j, cntOf r ≤ j → j < 5 → byteOf r j = 0

/-- The model's two faults (assumption log 10 and 11), and where they are raised: only where CFG.TSEL names no ROM image,
or DCNT is 5, 6 or 7. ENC4 faults unless one of its shortcuts answers: `z` for W = 0, `y` for four spaces with GS = 1. No
reachable state is so (10_state.md R35, R39). -/
def Obligations.UnreachableStatesStopByName : Prop :=
  (∀ (i : Instr) (s : State), exec i s = .fault .noRomImage → tselExists Config.build s.tsel = false) ∧
  (∀ (i : Instr) (s : State), exec i s = .fault .digitCountOutOfRange → 5 ≤ s.dcnt.toNat) ∧
  (∀ (b0 b1 b2 b3 sym : Byte) (s : State), tselExists Config.build s.tsel = false →
    exec (.enc1 b0) s = .fault .noRomImage ∧ exec (.enc2 b0 b1) s = .fault .noRomImage ∧
    exec (.enc3 b0 b1 b2) s = .fault .noRomImage ∧
    (groupValue4 b0 b1 b2 b3 ≠ 0 → (s.gs = 1 → groupValue4 b0 b1 b2 b3 ≠ 0x20202020) →
      exec (.enc4 b0 b1 b2 b3) s = .fault .noRomImage) ∧
    (sym ≠ 0x7A → sym ≠ 0x79 → exec (.dec sym) s = .fault .noRomImage)) ∧
  (∀ (s : State) (rom : Rom) (sym : Byte) (d : Fin 85), 5 ≤ s.dcnt.toNat →
    exec .dfl s = .fault .digitCountOutOfRange ∧
    (romOf Config.build s.tsel = some rom → classify rom sym = .digit d →
      exec (.dec sym) s = .fault .digitCountOutOfRange))

/-! ## Encodings -/

/-- Decoding an encoded instruction gives it back, with every operand at every value. -/
def Obligations.DecodeOfEncodeIsTheInstruction : Prop := ∀ i : Instr, decode (encode i) = .ok i

/-- The other direction: encoding what a word decodes to gives the word with its ignored bits zero, so the bits read are
exactly those of 30_encoding.md R82 and R83. -/
def Obligations.EncodeOfDecodeZeroesTheIgnoredBits : Prop :=
  ∀ (w : CommandWord) (i : Instr), decode w = .ok i → encode i = w &&& i.mnemonic.readBits

/-- 30_encoding.md R84: two words that agree on the bits the command reads spell the same command. -/
def Obligations.IgnoredBitsNeverChangeTheCommand : Prop :=
  ∀ (w v : CommandWord) (i : Instr), decode w = .ok i →
    v &&& i.mnemonic.readBits = w &&& i.mnemonic.readBits → decode v = .ok i

/-- 30_encoding.md R98: the opcode map, row by row; no two rows overlap, and a word that matches no row spells nothing. -/
def Obligations.OpcodeMapDecidesTheDecoder : Prop :=
  ∀ w : CommandWord,
    (w &&& 0xFF00000000 = 0x1100000000 ↔ ∃ b0, decode w = .ok (.enc1 b0)) ∧
    (w &&& 0xFF00000000 = 0x1200000000 ↔ ∃ b0 b1, decode w = .ok (.enc2 b0 b1)) ∧
    (w &&& 0xFF00000000 = 0x1300000000 ↔ ∃ b0 b1 b2, decode w = .ok (.enc3 b0 b1 b2)) ∧
    (w &&& 0xFF00000000 = 0x1400000000 ↔ ∃ b0 b1 b2 b3, decode w = .ok (.enc4 b0 b1 b2 b3)) ∧
    (w &&& 0xF000000000 = 0x2000000000 ↔ ∃ sym, decode w = .ok (.dec sym)) ∧
    (w &&& 0xF000000000 = 0x3000000000 ↔ decode w = .ok .dfl) ∧
    (w &&& 0xF000000000 = 0x4000000000 ↔ ∃ ts gs, decode w = .ok (.cfg ts gs)) ∧
    (w &&& 0xF000000000 = 0x5000000000 ↔ decode w = .ok .clr) ∧
    (w &&& 0xF000000000 = 0x6000000000 ↔ decode w = .ok .stat) ∧
    opcodeMap.Pairwise (fun r q => ¬ (r.matchesWord w = true ∧ q.matchesWord w = true)) ∧
    ((∀ r ∈ opcodeMap, r.matchesWord w = false) ↔ ∃ e, decode w = .error e)

/-- A few of the spec's own words, one of each family, decode to what the spec says they are. -/
def Obligations.SpecWordsDecodeToTheirCommands : Prop :=
  decode 0x1465617379 = .ok (.enc4 0x65 0x61 0x73 0x79) ∧ decode 0x1121FFFFFF = .ok (.enc1 0x21) ∧
  decode 0x1220200000 = .ok (.enc2 0x20 0x20) ∧ decode 0x1320202000 = .ok (.enc3 0x20 0x20 0x20) ∧
  decode 0x2F12345641 = .ok (.dec 0x41) ∧ decode 0x3FFFFFFFFF = .ok .dfl ∧ decode 0x4FFFFFFFF3 = .ok (.cfg 1 1) ∧
  decode 0x5FFFFFFFFF = .ok .clr ∧ decode 0x6F12345678 = .ok .stat ∧
  decode 0x1512345678 = .error (.badCount 5) ∧ decode 0x7000000000 = .error (.reservedOp 7)

/-! ## The ROM images -/

/-- 30_encoding.md R90, R91: the contents of STANDARD and, class by class, of ZEROMQ. -/
def Obligations.RomImagesAreTheListings : Prop :=
  (∀ d : Fin 85, (encRom standardRom d).toNat = 33 + d.val) ∧
  (∀ d : Fin 85, d.val < 10 → (encRom zeromqRom d).toNat = 0x30 + d.val) ∧
  (∀ d : Fin 85, 10 ≤ d.val → d.val < 36 → (encRom zeromqRom d).toNat = 0x61 + (d.val - 10)) ∧
  (∀ d : Fin 85, 36 ≤ d.val → d.val < 62 → (encRom zeromqRom d).toNat = 0x41 + (d.val - 36)) ∧
  zeromqRom.toList.drop 62 =
    [0x2E, 0x2D, 0x3A, 0x2B, 0x3D, 0x5E, 0x21, 0x2F, 0x2A, 0x3F, 0x26, 0x3C,
     0x3E, 0x28, 0x29, 0x5B, 0x5D, 0x7B, 0x7D, 0x40, 0x25, 0x24, 0x23]

/-- 10_state.md R42: the decoding ROM of every image a build can hold is the inverse of its encoding ROM, whose entries
are pairwise distinct. -/
def Obligations.DecodingRomInvertsTheEncodingRom : Prop :=
  ∀ (b : Build) (ts : BitVec 2) (rom : Rom), romOf b ts = some rom →
    (∀ d e : Fin 85, encRom rom d = encRom rom e → d = e) ∧
    (∀ (sym : Byte) (d : Fin 85), decRom rom sym = some d ↔ encRom rom d = sym) ∧
    (∀ sym : Byte, decRom rom sym = none ↔ ∀ d, encRom rom d ≠ sym)

/-- 30_encoding.md R93: the decoding ROM of STANDARD. -/
def Obligations.StandardDecodingRom : Prop :=
  ∀ sym : Byte, (decRom standardRom sym).map Fin.val =
    if 0x21 ≤ sym.toNat ∧ sym.toNat ≤ 0x75 then some (sym.toNat - 33) else none

/-- 30_encoding.md R94: the decoding ROM of ZEROMQ, as its 85 present bytes are listed there, every other ABSENT; and the
shortcuts, which shadow its digits 34 and 35, so that no byte is classified as either. The order within the table's
classes and its punctuation are the spec's general knowledge (assumption log 13). -/
def Obligations.ZeromqDecodingRom : Prop :=
  (∀ sym : Byte, (decRom zeromqRom sym).map Fin.val =
    ([(0x21, 68), (0x23, 84), (0x24, 83), (0x25, 82), (0x26, 72), (0x28, 75), (0x29, 76), (0x2A, 70), (0x2B, 65),
      (0x2D, 63), (0x2E, 62), (0x2F, 69), (0x30, 0), (0x31, 1), (0x32, 2), (0x33, 3), (0x34, 4), (0x35, 5), (0x36, 6),
      (0x37, 7), (0x38, 8), (0x39, 9), (0x3A, 64), (0x3C, 73), (0x3D, 66), (0x3E, 74), (0x3F, 71), (0x40, 81)] ++
     [(0x41, 36), (0x42, 37), (0x43, 38), (0x44, 39), (0x45, 40), (0x46, 41), (0x47, 42), (0x48, 43), (0x49, 44),
      (0x4A, 45), (0x4B, 46), (0x4C, 47), (0x4D, 48), (0x4E, 49), (0x4F, 50), (0x50, 51), (0x51, 52), (0x52, 53),
      (0x53, 54), (0x54, 55), (0x55, 56), (0x56, 57), (0x57, 58), (0x58, 59), (0x59, 60), (0x5A, 61), (0x5B, 77),
      (0x5D, 78), (0x5E, 67)] ++
     [(0x61, 10), (0x62, 11), (0x63, 12), (0x64, 13), (0x65, 14), (0x66, 15), (0x67, 16), (0x68, 17), (0x69, 18),
      (0x6A, 19), (0x6B, 20), (0x6C, 21), (0x6D, 22), (0x6E, 23), (0x6F, 24), (0x70, 25), (0x71, 26), (0x72, 27),
      (0x73, 28), (0x74, 29), (0x75, 30), (0x76, 31), (0x77, 32), (0x78, 33), (0x79, 34), (0x7A, 35), (0x7B, 79),
      (0x7D, 80)]).lookup sym.toNat) ∧
  (∀ sym : Byte, classify zeromqRom sym ≠ .digit 34 ∧ classify zeromqRom sym ≠ .digit 35)

/-- 00_scope.md R6, R7, 30_encoding.md R92, 93_implementation_defined.md U1: which parameters make a build, and what the
build's CUSTOM image holds. That `LAT` = 0, `RESP_DEPTH` = 0 and a table of another length make no build, and that a table
is not checked without `HAS_CUSTOM`, is deduced from R6, R7 and U1 (assumption log 2). -/
def Obligations.MalformedCustomTableGivesNoBuild : Prop :=
  ∀ p : Params,
    (p.build? = none ↔ p.wf = false) ∧
    (p.hasCustom = true → ¬ p.customTable.Nodup → p.build? = none) ∧
    ∀ b, p.build? = some b →
      b.hasCustom = p.hasCustom ∧ b.lat = p.lat ∧ b.respDepth = p.respDepth ∧
      (p.hasCustom = true → ∃ rom, romOf b 2 = some rom ∧ rom.toList = p.customTable) ∧
      (p.hasCustom = false → romOf b 2 = none)

/-! ## The encoder family -/

/-- 40_encoder.md R120: the radix converter is exact, its digits are those of five divisions by 85 read in reverse, and
the first digit is at most 82. -/
def Obligations.RadixConverterIsExact : Prop :=
  ∀ w : BitVec 32,
    let d := fun i => (digit w i).val
    digits5 w = [digit w 0, digit w 1, digit w 2, digit w 3, digit w 4] ∧
    (∀ i, i < 5 → d i = w.toNat / 85 ^ (4 - i) % 85) ∧
    (∀ i, i < 5 → d (4 - i) = ((fun v => v / 85)^[i] w.toNat) % 85) ∧
    w.toNat = d 0 * 85 ^ 4 + d 1 * 85 ^ 3 + d 2 * 85 ^ 2 + d 3 * 85 + d 4 ∧ d 0 ≤ 82

/-- 40_encoder.md R122, R123, R124: ENC4's words, and its answer: `z` for an all-zero group whatever GS and the table, `y`
for four spaces only when GS = 1, else the five symbols. No register is written. -/
def Obligations.Enc4AnswersAShortcutOrFiveSymbols : Prop :=
  (∀ w : CommandWord, w &&& 0xFF00000000 = 0x1400000000 →
    decode w = .ok (.enc4 (w.extractLsb' 24 8) (w.extractLsb' 16 8) (w.extractLsb' 8 8) (w.extractLsb' 0 8))) ∧
  (∀ (b0 b1 b2 b3 : Byte) (s : State) (rom : Rom), romOf Config.build s.tsel = some rom →
    let W := b0.toNat * 2 ^ 24 + b1.toNat * 2 ^ 16 + b2.toNat * 2 ^ 8 + b3.toNat
    let sym := fun i => encRom rom (Fin.ofNat 85 (W / 85 ^ (4 - i)))
    let answer : ResponseWord :=
      if W = 0x00000000 then 0x017A00000000
      else if s.gs = 1 ∧ W = 0x20202020 then 0x017900000000
      else 0x05#8 ++ sym 0 ++ sym 1 ++ sym 2 ++ sym 3 ++ sym 4
    exec (.enc4 b0 b1 b2 b3) s = .next { s with rq := s.rq ++ [answer] })

/-- 40_encoder.md R125: ENC3's words, and its answer of four symbols, with the missing byte as zero and no shortcut. -/
def Obligations.Enc3AnswersFourSymbols : Prop :=
  (∀ w : CommandWord, w &&& 0xFF00000000 = 0x1300000000 →
    decode w = .ok (.enc3 (w.extractLsb' 24 8) (w.extractLsb' 16 8) (w.extractLsb' 8 8))) ∧
  (∀ (b0 b1 b2 : Byte) (s : State) (rom : Rom), romOf Config.build s.tsel = some rom →
    let W := b0.toNat * 2 ^ 24 + b1.toNat * 2 ^ 16 + b2.toNat * 2 ^ 8
    let sym := fun i => encRom rom (Fin.ofNat 85 (W / 85 ^ (4 - i)))
    let answer : ResponseWord := 0x04#8 ++ sym 0 ++ sym 1 ++ sym 2 ++ sym 3 ++ 0#8
    exec (.enc3 b0 b1 b2) s = .next { s with rq := s.rq ++ [answer] })

/-- 40_encoder.md R126: ENC2's words, and its answer of three symbols. -/
def Obligations.Enc2AnswersThreeSymbols : Prop :=
  (∀ w : CommandWord, w &&& 0xFF00000000 = 0x1200000000 →
    decode w = .ok (.enc2 (w.extractLsb' 24 8) (w.extractLsb' 16 8))) ∧
  (∀ (b0 b1 : Byte) (s : State) (rom : Rom), romOf Config.build s.tsel = some rom →
    let W := b0.toNat * 2 ^ 24 + b1.toNat * 2 ^ 16
    let sym := fun i => encRom rom (Fin.ofNat 85 (W / 85 ^ (4 - i)))
    let answer : ResponseWord := 0x03#8 ++ sym 0 ++ sym 1 ++ sym 2 ++ 0#16
    exec (.enc2 b0 b1) s = .next { s with rq := s.rq ++ [answer] })

/-- 40_encoder.md R127: ENC1's words, and its answer of two symbols. -/
def Obligations.Enc1AnswersTwoSymbols : Prop :=
  (∀ w : CommandWord, w &&& 0xFF00000000 = 0x1100000000 → decode w = .ok (.enc1 (w.extractLsb' 24 8))) ∧
  (∀ (b0 : Byte) (s : State) (rom : Rom), romOf Config.build s.tsel = some rom →
    let W := b0.toNat * 2 ^ 24
    let sym := fun i => encRom rom (Fin.ofNat 85 (W / 85 ^ (4 - i)))
    let answer : ResponseWord := 0x02#8 ++ sym 0 ++ sym 1 ++ 0#24
    exec (.enc1 b0) s = .next { s with rq := s.rq ++ [answer] })

/-- 40_encoder.md R121, 30_encoding.md R83: the group value of an ENCn word is DATA masked to its top n bytes. -/
def Obligations.GroupValueIsTheMaskedData : Prop :=
  ∀ w : CommandWord,
    (∀ b0, decode w = .ok (.enc1 b0) → groupValue1 b0 = dataField w &&& 0xFF000000) ∧
    (∀ b0 b1, decode w = .ok (.enc2 b0 b1) → groupValue2 b0 b1 = dataField w &&& 0xFFFF0000) ∧
    (∀ b0 b1 b2, decode w = .ok (.enc3 b0 b1 b2) → groupValue3 b0 b1 b2 = dataField w &&& 0xFFFFFF00) ∧
    (∀ b0 b1 b2 b3, decode w = .ok (.enc4 b0 b1 b2 b3) → groupValue4 b0 b1 b2 b3 = dataField w &&& 0xFFFFFFFF)

/-- 40_encoder.md R130: the encoder holds no state. Under one CFG an ENC command gives one answer, whatever the rest of
the state, and changes nothing but RQ. -/
def Obligations.EncoderHoldsNoState : Prop :=
  ∀ (i : Instr) (c : BitVec 3), encodes i = true → tselExists Config.build (c.extractLsb' 1 2) = true →
    ∃ r, ∀ s : State, s.cfg = c → exec i s = .next { s with rq := s.rq ++ [r] }

/-- 70_reset_and_hazards.md R261: an ENC command between two others changes neither the registers the second leaves nor its
response, and DEC and DFL do not change CFG, which is all the encoder reads. -/
def Obligations.EncoderMayInterleaveWithTheDecoder : Prop :=
  (∀ (i j : Instr) (s t u : State), encodes i = true → exec i s = .next t → exec j s = .next u →
    ∃ v q r, exec j t = .next v ∧ v.cfg = u.cfg ∧ v.acc = u.acc ∧ v.dcnt = u.dcnt ∧
      u.rq = s.rq ++ [r] ∧ v.rq = s.rq ++ [q, r]) ∧
  (∀ (sym : Byte) (s t : State), exec (.dec sym) s = .next t → t.cfg = s.cfg) ∧
  (∀ s t : State, exec .dfl s = .next t → t.cfg = s.cfg)

/-! ## The decoder family -/

/-- 41_decoder.md R151, R152: the shortcuts, for every table and either GS, with ACC and DCNT kept. -/
def Obligations.DecShortcutsAnswerFourBytesAtOnce : Prop :=
  ∀ s : State,
    exec (.dec 0x7A) s = .next { s with rq := s.rq ++ [0x040000000000] } ∧
    exec (.dec 0x79) s = .next { s with rq := s.rq ++ [0x042020202000] }

/-- 41_decoder.md R153: a digit that does not complete a group. -/
def Obligations.DecTakesADigit : Prop :=
  ∀ (s : State) (rom : Rom) (sym : Byte) (d : Fin 85), romOf Config.build s.tsel = some rom →
    sym ≠ 0x7A → sym ≠ 0x79 → decRom rom sym = some d →
    s.dcnt.toNat < 4 → s.acc.toNat < 85 ^ s.dcnt.toNat →
    ∃ t, exec (.dec sym) s = .next t ∧
      t = { s with acc := t.acc, dcnt := t.dcnt, rq := s.rq ++ [0x000000000000] } ∧
      t.acc.toNat = s.acc.toNat * 85 + d.val ∧ t.dcnt.toNat = s.dcnt.toNat + 1 ∧
      t.acc.toNat < 85 ^ (s.dcnt.toNat + 1)

/-- 41_decoder.md R154: the fifth digit. -/
def Obligations.DecCompletesAGroup : Prop :=
  ∀ (s : State) (rom : Rom) (sym : Byte) (d : Fin 85), romOf Config.build s.tsel = some rom →
    sym ≠ 0x7A → sym ≠ 0x79 → decRom rom sym = some d →
    s.dcnt = 4 → s.acc.toNat < 85 ^ 4 →
    let V := s.acc.toNat * 85 + d.val
    let answer : ResponseWord := (if 2 ^ 32 ≤ V then 0x0C#8 else 0x04#8) ++ BitVec.ofNat 32 (V % 2 ^ 32) ++ 0#8
    V ≤ 4437053124 ∧
    exec (.dec sym) s = .next { s with acc := 0, dcnt := 0, rq := s.rq ++ [answer] }

/-- 41_decoder.md R155: an ignorable byte. -/
def Obligations.DecIgnoresAnAbsentByte : Prop :=
  ∀ (s : State) (rom : Rom) (sym : Byte), romOf Config.build s.tsel = some rom →
    sym ≠ 0x7A → sym ≠ 0x79 → decRom rom sym = none →
    exec (.dec sym) s = .next { s with rq := s.rq ++ [0x000000000000] }

/-- 41_decoder.md R150, R156: DEC's words, its answer by the class of the byte, and the priority order: a shortcut wins
over the table's digit, a digit over an ignorable byte, and every byte has exactly one class. -/
def Obligations.DecFollowsThePriorityOrder : Prop :=
  (∀ w : CommandWord, w &&& 0xF000000000 = 0x2000000000 → decode w = .ok (.dec (w.extractLsb' 0 8))) ∧
  (∀ (s : State) (rom : Rom) (sym : Byte), romOf Config.build s.tsel = some rom →
    (classify rom sym = .zeroShortcut ↔ sym = 0x7A) ∧
    (classify rom sym = .spaceShortcut ↔ sym = 0x79) ∧
    (∀ d, classify rom sym = .digit d ↔ sym ≠ 0x7A ∧ sym ≠ 0x79 ∧ encRom rom d = sym) ∧
    (classify rom sym = .ignorable ↔ sym ≠ 0x7A ∧ sym ≠ 0x79 ∧ ∀ d, encRom rom d ≠ sym) ∧
    exec (.dec sym) s =
      match classify rom sym with
      | .zeroShortcut => .next (s.respond .ok false [0x00, 0x00, 0x00, 0x00])
      | .spaceShortcut => .next (s.respond .ok false [0x20, 0x20, 0x20, 0x20])
      | .digit d => s.takeDigit d
      | .ignorable => .next (s.respond .ok false []))

/-- 41_decoder.md R157: a shortcut inside a group answers before the group does, and the pending digits go on. -/
def Obligations.ShortcutInsideAGroupKeepsThePendingDigits : Prop :=
  ∀ (s u : State) (short sym : Byte), (short = 0x7A ∨ short = 0x79) → exec (.dec sym) s = .next u →
    ∃ t v q r, exec (.dec short) s = .next t ∧ t.acc = s.acc ∧ t.dcnt = s.dcnt ∧
      exec (.dec sym) t = .next v ∧ v.acc = u.acc ∧ v.dcnt = u.dcnt ∧
      u.rq = s.rq ++ [r] ∧ v.rq = s.rq ++ [q, r] ∧ cntOf q = 4

/-- 41_decoder.md R160, R161: DFL's words, and its answer in every state that meets the invariant: nothing with no digits,
else n-1 bytes of the value padded with digits 84, OVF as for the fifth digit; ACC and DCNT are cleared. A 1-digit tail
gives OVF = 1 exactly when its digit is 82 or more. -/
def Obligations.DflFlushesThePartialGroup : Prop :=
  (∀ w : CommandWord, w &&& 0xF000000000 = 0x3000000000 → decode w = .ok .dfl) ∧
  (∀ s : State, s.dcnt = 0 →
    exec .dfl s = .next { s with acc := 0, dcnt := 0, rq := s.rq ++ [0x000000000000] }) ∧
  (∀ s : State, 1 ≤ s.dcnt.toNat → s.dcnt.toNat ≤ 4 → s.acc.toNat < 85 ^ s.dcnt.toNat →
    let n := s.dcnt.toNat
    let V := s.acc.toNat * 85 ^ (5 - n) + (85 ^ (5 - n) - 1)
    let answer : ResponseWord :=
      0#4 ++ BitVec.ofBool (decide (2 ^ 32 ≤ V)) ++ BitVec.ofNat 3 (n - 1) ++
        (BitVec.ofNat 32 (V % 2 ^ 32) &&& groupMask (n - 1)) ++ 0#8
    V = (fun v => v * 85 + 84)^[5 - n] s.acc.toNat ∧
    (n = 1 → (2 ^ 32 ≤ V ↔ 82 ≤ s.acc.toNat)) ∧
    exec .dfl s = .next { s with acc := 0, dcnt := 0, rq := s.rq ++ [answer] })

/-- 41_decoder.md R165: CFG in mid-group keeps the digits already taken, the next digit is read in the new table, and DFL
does not depend on CFG. -/
def Obligations.CfgInMidGroupChangesLaterDigitsOnly : Prop :=
  (∀ (s : State) (ts : BitVec 2) (gs : BitVec 1) (rom : Rom) (sym : Byte) (d : Fin 85),
    romOf Config.build ts = some rom → sym ≠ 0x7A → sym ≠ 0x79 → decRom rom sym = some d →
    s.dcnt.toNat < 4 → s.acc.toNat < 85 ^ s.dcnt.toNat →
    ∃ t u, exec (.cfg ts gs) s = .next t ∧ t.acc = s.acc ∧ t.dcnt = s.dcnt ∧
      exec (.dec sym) t = .next u ∧ u.acc.toNat = s.acc.toNat * 85 + d.val ∧ u.dcnt.toNat = s.dcnt.toNat + 1) ∧
  (∀ (s t : State) (c : BitVec 3), exec .dfl s = .next t → exec .dfl { s with cfg := c } = .next { t with cfg := c })

/-- 41_decoder.md R163: the inverse law for one group, any table, any state of the decoder with no digit pending. A group
of n bytes whose symbols hold neither shortcut byte decodes back to its bytes, with OVF = 0 throughout; a shortcut that
ENC4 produced decodes back through the shortcut case. -/
def Obligations.GroupDecodesBackToItsBytes : Prop :=
  ∀ (group : List Byte) (i : Instr) (s t u : State) (r : ResponseWord),
    encInstr group = some i → exec i s = .next t → t.rq = s.rq ++ [r] →
    Inv Config.build u → u.dcnt = 0 → u.tsel = s.tsel →
    (0x79 ∉ dataBytes r → 0x7A ∉ dataBytes r →
      ∃ v rs,
        execAll (if group.length < 4 then decmInstrs (dataBytes r) else decsInstrs (dataBytes r)) u = .next v ∧
        v.rq = u.rq ++ rs ∧ collect rs = group ∧ (∀ q ∈ rs, ovfOf q = false) ∧ v.acc = 0 ∧ v.dcnt = 0) ∧
    (dataBytes r = [0x7A] ∨ dataBytes r = [0x79] →
      ∃ v q, execAll (decsInstrs (dataBytes r)) u = .next v ∧ v.rq = u.rq ++ [q] ∧ dataBytes q = group)

/-! ## The control family -/

/-- 42_control.md R180, R181: CFG's answer and effect for every operand. ACC and DCNT are not touched, and a refused write
changes neither field. -/
def Obligations.CfgWritesBothFieldsOrRefuses : Prop :=
  (∀ w : CommandWord, w &&& 0xF000000000 = 0x4000000000 →
    decode w = .ok (.cfg (w.extractLsb' 1 2) (w.extractLsb' 0 1))) ∧
  (∀ (ts : BitVec 2) (gs : BitVec 1) (s : State),
    exec (.cfg ts gs) s = .next
      (if ts = 3 ∨ (ts = 2 ∧ Config.build.hasCustom = false) then { s with rq := s.rq ++ [0x100000000000] }
       else { s with cfg := ts ++ gs, rq := s.rq ++ [0x000000000000] }))

/-- 42_control.md R182: CLR. -/
def Obligations.ClrAbandonsThePartialGroup : Prop :=
  (∀ w : CommandWord, w &&& 0xF000000000 = 0x5000000000 → decode w = .ok .clr) ∧
  (∀ s : State, exec .clr s = .next { s with acc := 0, dcnt := 0, rq := s.rq ++ [0x000000000000] })

/-- 42_control.md R183: STAT. -/
def Obligations.StatReportsConfigurationAndDigitCount : Prop :=
  (∀ w : CommandWord, w &&& 0xF000000000 = 0x6000000000 → decode w = .ok .stat) ∧
  (∀ s : State,
    let capability : Byte := if Config.build.hasCustom then 0x01 else 0x00
    let answer : ResponseWord := 0x03#8 ++ (0#5 ++ s.tsel ++ s.gs) ++ (0#5 ++ s.dcnt) ++ capability ++ 0#16
    exec .stat s = .next { s with rq := s.rq ++ [answer] })

/-- 10_state.md R36: CFG.GS affects the answer of ENC4 only (STAT reports it and CFG writes it): every other command gives
the same response and leaves the same ACC and DCNT under either GS. -/
def Obligations.GroupSpaceFlagAffectsOnlyEnc4 : Prop :=
  ∀ (i : Instr) (s t : State) (g : BitVec 1),
    i.mnemonic ≠ .ENC4 → i.mnemonic ≠ .CFG → i.mnemonic ≠ .STAT → exec i s = .next t →
    exec i { s with cfg := s.tsel ++ g } = .next { t with cfg := s.tsel ++ g }

/-! ## The host's sequences -/

/-- 47_host_sequences.md R200: the text of one group of 1 to 4 bytes is the bytes of its command's response; a longer
message is encoded group by group, in order; and the markers stand around the text where asked for. -/
def Obligations.MessageIsEncodedGroupByGroup : Prop :=
  (∀ (group : List Byte) (i : Instr) (r : ResponseWord) (s t : State), Idle Config.build s →
    encInstr group = some i → exec i s = .next t → t.rq = [r] →
    ∃ u, encodeMsg group false s = .done (dataBytes r) u ∧ u.cfg = s.cfg ∧ u.acc = s.acc ∧ u.dcnt = s.dcnt) ∧
  (∀ (b0 b1 b2 b3 : Byte) (rest : List Byte) (s : State), Idle Config.build s →
    ∃ group tail t1 t2 t3, encodeMsg [b0, b1, b2, b3] false s = .done group t1 ∧
      encodeMsg rest false s = .done tail t2 ∧
      encodeMsg (b0 :: b1 :: b2 :: b3 :: rest) false s = .done (group ++ tail) t3) ∧
  (∀ (data : List Byte) (s : State), Idle Config.build s →
    ∃ text t, encodeMsg data false s = .done text t ∧
      encodeMsg data true s = .done ([0x3C, 0x7E] ++ text ++ [0x7E, 0x3E]) t)

/-- 47_host_sequences.md R201, R205: the empty message, which issues no command, and the empty text. -/
def Obligations.EmptyMessagesGiveEmptyOutput : Prop :=
  ∀ s : State, Idle Config.build s → s.dcnt = 0 →
    encmInstrs [] = [] ∧ (∃ t, encodeMsg [] false s = .done [] t) ∧
    (∃ t, encodeMsg [] true s = .done [0x3C, 0x7E, 0x7E, 0x3E] t) ∧
    (∃ t, decodeMsg [] s = .done [] t) ∧ (∃ t, decodeMsg [0x3C, 0x7E, 0x7E, 0x3E] s = .done [] t)

/-- 47_host_sequences.md R202: the length of the encoded text, and the bound without shortcuts. -/
def Obligations.EncodedLengthFormula : Prop :=
  ∀ (data : List Byte) (delimiter : Bool) (s : State), Idle Config.build s →
    let Q := data.length / 4
    let k := data.length % 4
    let Z := shortcutGroups s.gs data
    Z ≤ Q ∧ ∃ text t, encodeMsg data delimiter s = .done text t ∧
      text.length = 5 * (Q - Z) + Z + (if 0 < k then k + 1 else 0) + (if delimiter then 4 else 0) ∧
      text.length ≤ 5 * Q + (if 0 < k then k + 1 else 0) + (if delimiter then 4 else 0)

/-- 47_host_sequences.md R211: the output alphabet of STANDARD and of ZEROMQ, both 7-bit. -/
def Obligations.OutputAlphabet : Prop :=
  ∀ (data : List Byte) (s : State), Idle Config.build s →
    ∃ text t, encodeMsg data false s = .done text t ∧
      (s.tsel = 0 → ∀ c ∈ text, (0x21 ≤ c.toNat ∧ c.toNat ≤ 0x75) ∨ c = 0x79 ∨ c = 0x7A) ∧
      (s.tsel = 1 → ∀ c ∈ text, c ∈ zeromqRom.toList) ∧
      (s.tsel = 0 ∨ s.tsel = 1 → ∀ c ∈ text, c.toNat < 128) ∧
      (∀ rom, romOf Config.build s.tsel = some rom → ∀ c ∈ text, c ∈ rom.toList ∨ c = 0x79 ∨ c = 0x7A) ∧
      ∃ t', encodeMsg data true s = .done ([0x3C, 0x7E] ++ text ++ [0x7E, 0x3E]) t'

/-- 47_host_sequences.md R204: the delimiter check of DECODE_MSG: the mismatch issues no command. -/
def Obligations.DelimiterCheckOfDecode : Prop :=
  ∀ s : State,
    (∀ text : List Byte, text.take 2 = [0x3C, 0x7E] →
      ¬ (4 ≤ text.length ∧ text.drop (text.length - 2) = [0x7E, 0x3E]) → decodeMsg text s = .delimiterMismatch s) ∧
    (∀ body : List Byte,
      decodeMsg ([0x3C, 0x7E] ++ body ++ [0x7E, 0x3E]) s = issue (body.map Instr.dec ++ [.dfl]) s) ∧
    (∀ text : List Byte, text.take 2 ≠ [0x3C, 0x7E] → decodeMsg text s = issue (text.map Instr.dec ++ [.dfl]) s)

/-- 47_host_sequences.md R206: after an abandoned call the decoder is clean, CFG is kept, and no byte is given. -/
def Obligations.AbandonedDecodeLeavesACleanDecoder : Prop :=
  ∀ (begun : List Byte) (s : State), Idle Config.build s →
    ∃ t, abandonDecode begun s = .delimiterMismatch t ∧ t.acc = 0 ∧ t.dcnt = 0 ∧ t.cfg = s.cfg ∧ t.rq = []

/-- 47_host_sequences.md R207: the round trip, for every message, with the rule's three conditions; the second holds
wherever the table lacks 0x7E. The two calls may run under different GS. The first condition holds for STANDARD and not
for ZEROMQ, the second for both. -/
def Obligations.MessageRoundTrip : Prop :=
  (0x79 ∉ standardRom.toList ∧ 0x7A ∉ standardRom.toList ∧ 0x79 ∈ zeromqRom.toList ∧ 0x7A ∈ zeromqRom.toList ∧
    0x7E ∉ standardRom.toList ∧ 0x7E ∉ zeromqRom.toList) ∧
  ∀ (data : List Byte) (delimiter : Bool) (s u : State) (rom : Rom),
    Idle Config.build s → Idle Config.build u → u.dcnt = 0 → u.tsel = s.tsel →
    romOf Config.build s.tsel = some rom → 0x79 ∉ rom.toList → 0x7A ∉ rom.toList →
    ∃ text t, encodeMsg data delimiter s = .done text t ∧
      ((delimiter = true ∨ text.take 2 ≠ [0x3C, 0x7E]) → ∃ v, decodeMsg text u = .done data v ∧ v.dcnt = 0) ∧
      (delimiter = false → 0x7E ∉ rom.toList → text.take 2 ≠ [0x3C, 0x7E])

/-- 41_decoder.md R164: STANDARD holds neither shortcut byte, so it always meets the round trip's condition. In ZEROMQ a
group of 1 to 4 bytes one of whose emitted symbols stands for digit 34 or 35 is encoded to a text that holds 0x79 or 0x7A
and does not decode back. The rule's example, 00 00 00 23, decodes to 7 zero bytes. -/
def Obligations.ZeromqShortcutDigitsDoNotRoundTrip : Prop :=
  (0x79 ∉ standardRom.toList ∧ 0x7A ∉ standardRom.toList) ∧
  ∀ s u : State, Idle Config.build s → Idle Config.build u → u.dcnt = 0 → s.tsel = 1 → u.tsel = 1 →
    let shadowed := fun (emitted : List (Fin 85)) => 34 ∈ emitted ∨ 35 ∈ emitted
    let lost := fun (group : List Byte) =>
      ∃ text out t v, encodeMsg group false s = .done text t ∧ (0x79 ∈ text ∨ 0x7A ∈ text) ∧
        decodeMsg text u = .done out v ∧ out ≠ group
    (∀ b0 b1 b2 b3, shadowed (digits5 (groupValue4 b0 b1 b2 b3)) → lost [b0, b1, b2, b3]) ∧
    (∀ b0 b1 b2, shadowed ((digits5 (groupValue3 b0 b1 b2)).take 4) → lost [b0, b1, b2]) ∧
    (∀ b0 b1, shadowed ((digits5 (groupValue2 b0 b1)).take 3) → lost [b0, b1]) ∧
    (∀ b0, shadowed ((digits5 (groupValue1 b0)).take 2) → lost [b0]) ∧
    ∃ t v, encodeMsg [0x00, 0x00, 0x00, 0x23] false s = .done [0x30, 0x30, 0x30, 0x30, 0x7A] t ∧
      decodeMsg [0x30, 0x30, 0x30, 0x30, 0x7A] u = .done [0, 0, 0, 0, 0, 0, 0] v

/-- 41_decoder.md R162: the length of a decode's output, from the number of its digit bytes and of its shortcut bytes. -/
def Obligations.DecodedLengthFormula : Prop :=
  ∀ (text : List Byte) (s : State) (rom : Rom), Idle Config.build s → s.dcnt = 0 →
    romOf Config.build s.tsel = some rom →
    let D := text.countP fun c => decide (c ≠ 0x7A ∧ c ≠ 0x79 ∧ decRom rom c ≠ none)
    let S := text.countP fun c => decide (c = 0x7A ∨ c = 0x79)
    ∃ out t, issue (decmInstrs text) s = .done out t ∧ out.length = 4 * (D / 5) + 4 * S + (D % 5 - 1) ∧ t.dcnt = 0

/-- 47_host_sequences.md R209, for the ignorable bytes of 41_decoder.md R155 (the ABSENT bytes other than the two
shortcuts, assumption log 19): leaving them out leaves the decoded bytes as they are. -/
def Obligations.IgnorableBytesDoNotChangeTheOutput : Prop :=
  ∀ (text : List Byte) (s : State) (rom : Rom), Idle Config.build s → romOf Config.build s.tsel = some rom →
    ∃ out t u, issue (decmInstrs text) s = .done out t ∧
      issue (decmInstrs (text.filter fun c => decide (classify rom c ≠ .ignorable))) s = .done out u ∧
      u.cfg = t.cfg ∧ u.acc = t.acc ∧ u.dcnt = t.dcnt

/-- 47_host_sequences.md R208: a call under an override gives what it gives under that configuration, and the previous
configuration is back afterwards; also where the call ends in DelimiterMismatchError (R206), found before its first
command, which leaves ACC and DCNT as they were, or late, which leaves them 0. That STAT and both CFG commands are issued
around a call that issues no command too is the model's choice (assumption log 23). -/
def Obligations.OverrideAppliesToOneCallOnly : Prop :=
  ∀ (ts : BitVec 2) (gs : BitVec 1) (s : State), Idle Config.build s → tselExists Config.build ts = true →
    (∀ (data : List Byte) (delimiter : Bool), ∃ out t u,
      withOverride ts gs (encodeMsg data delimiter) s = .done out t ∧ t.cfg = s.cfg ∧ Idle Config.build t ∧
      encodeMsg data delimiter { s with cfg := ts ++ gs } = .done out u) ∧
    (∀ text body : List Byte, stripMarkers text = some body → ∃ out t u,
      withOverride ts gs (decodeMsg text) s = .done out t ∧ t.cfg = s.cfg ∧ Idle Config.build t ∧
      decodeMsg text { s with cfg := ts ++ gs } = .done out u) ∧
    (∀ text : List Byte, stripMarkers text = none → ∃ t,
      withOverride ts gs (decodeMsg text) s = .delimiterMismatch t ∧ t.cfg = s.cfg ∧ t.acc = s.acc ∧ t.dcnt = s.dcnt ∧
      Idle Config.build t) ∧
    (∀ begun : List Byte, ∃ t,
      withOverride ts gs (abandonDecode begun) s = .delimiterMismatch t ∧ t.cfg = s.cfg ∧ t.acc = 0 ∧ t.dcnt = 0 ∧
      Idle Config.build t)

/-- 30_encoding.md R99, R100: what each line emits. A string stands for its US-ASCII bytes; every word of a line but the
raw form spells a command, ignored fields zero; ENCn and DEC spell the command and the bytes they name, CFG the table its
name or number selects and its gs; the raw form is the word it gives; ENCM emits one encode command for each group of four
bytes and for the rest, DECS one DEC for each byte, and DECM the same and a DFL. That ENCM takes numbers as well as a
string is the model's choice (assumption log 22). -/
def Obligations.AssemblerLinesDecodeToTheirCommands : Prop :=
  (∀ chars : List Char, (∀ c ∈ chars, c.toNat < 128) →
    (ByteArg.quoted chars).values? = some (chars.map fun c => BitVec.ofNat 8 c.toNat)) ∧
  (∀ values : List Nat, (∀ n ∈ values, n < 256) → (ByteArg.bytes values).values? = some (values.map (BitVec.ofNat 8))) ∧
  (∀ (line : AsmLine) (ws : List CommandWord), (∀ n, line ≠ .word n) → assemble line = some ws →
    ∀ w ∈ ws, ∃ i, decode w = .ok i ∧ w &&& i.mnemonic.readBits = w) ∧
  (∀ (n : Nat) (arg : ByteArg) (bs : List Byte), arg.values? = some bs → bs.length = n → 1 ≤ n → n ≤ 4 →
    ∃ w i, assemble (.enc n arg) = some [w] ∧ decode w = .ok i ∧ encInstr bs = some i) ∧
  (∀ (arg : ByteArg) (b : Byte), arg.values? = some [b] → ∃ w, assemble (.dec arg) = some [w] ∧ decode w = .ok (.dec b)) ∧
  (∀ gs : Nat, gs < 2 →
    (∃ w, assemble (.cfg .STANDARD gs) = some [w] ∧ decode w = .ok (.cfg 0 (BitVec.ofNat 1 gs))) ∧
    (∃ w, assemble (.cfg .ZEROMQ gs) = some [w] ∧ decode w = .ok (.cfg 1 (BitVec.ofNat 1 gs))) ∧
    (∃ w, assemble (.cfg .CUSTOM gs) = some [w] ∧ decode w = .ok (.cfg 2 (BitVec.ofNat 1 gs))) ∧
    ∀ n, n < 4 → ∃ w, assemble (.cfg (.number n) gs) = some [w] ∧
      decode w = .ok (.cfg (BitVec.ofNat 2 n) (BitVec.ofNat 1 gs))) ∧
  (∃ w, assemble .dfl = some [w] ∧ decode w = .ok .dfl) ∧
  (∃ w, assemble .clr = some [w] ∧ decode w = .ok .clr) ∧
  (∃ w, assemble .stat = some [w] ∧ decode w = .ok .stat) ∧
  (∀ w : CommandWord, assemble (.word w.toNat) = some [w]) ∧
  (∀ (text : List Char) (bs : List Byte), (ByteArg.quoted text).values? = some bs →
    ∃ ws, assemble (.decs text) = some ws ∧ ws.map decode = bs.map (fun b => .ok (.dec b)) ∧
      ∃ w, assemble (.decm text) = some (ws ++ [w]) ∧ decode w = .ok .dfl) ∧
  (∀ (arg : ByteArg) (bs : List Byte), arg.values? = some bs →
    ∃ ws, assemble (.encm arg) = some ws ∧ ws.length = (bs.length + 3) / 4 ∧
      ∀ g, 4 * g < bs.length →
        ∃ w i, ws[g]? = some w ∧ decode w = .ok i ∧ encInstr ((bs.drop (4 * g)).take 4) = some i)
end

