-- ==== Sys2Proof/Laws/State.lean ====
section
/-! SUPPORT. One lemma per field per update of the state, each true by rfl. -/

namespace Sys2Proof.Machine

section Respond
variable (s : State) (rc : ResultCode) (ovf : Bool) (seq : List Byte)
@[simp] theorem State.respond_cfg : (s.respond rc ovf seq).cfg = s.cfg := rfl
@[simp] theorem State.respond_acc : (s.respond rc ovf seq).acc = s.acc := rfl
@[simp] theorem State.respond_dcnt : (s.respond rc ovf seq).dcnt = s.dcnt := rfl
@[simp] theorem State.respond_rq : (s.respond rc ovf seq).rq = s.rq ++ [respWord rc ovf seq] := rfl
@[simp] theorem State.respond_phase : (s.respond rc ovf seq).phase = s.phase := rfl
@[simp] theorem State.respond_pins : (s.respond rc ovf seq).pins = s.pins := rfl
@[simp] theorem State.respond_taken : (s.respond rc ovf seq).taken = s.taken := rfl
@[simp] theorem State.respond_tsel : (s.respond rc ovf seq).tsel = s.tsel := rfl
@[simp] theorem State.respond_gs : (s.respond rc ovf seq).gs = s.gs := rfl
end Respond

section SetDigits
variable (s : State) (a d : Nat)
@[simp] theorem State.setDigits_cfg : (s.setDigits a d).cfg = s.cfg := rfl
@[simp] theorem State.setDigits_acc : (s.setDigits a d).acc = BitVec.ofNat 32 a := rfl
@[simp] theorem State.setDigits_dcnt : (s.setDigits a d).dcnt = BitVec.ofNat 3 d := rfl
@[simp] theorem State.setDigits_rq : (s.setDigits a d).rq = s.rq := rfl
@[simp] theorem State.setDigits_phase : (s.setDigits a d).phase = s.phase := rfl
@[simp] theorem State.setDigits_pins : (s.setDigits a d).pins = s.pins := rfl
@[simp] theorem State.setDigits_taken : (s.setDigits a d).taken = s.taken := rfl
@[simp] theorem State.setDigits_tsel : (s.setDigits a d).tsel = s.tsel := rfl
@[simp] theorem State.setDigits_gs : (s.setDigits a d).gs = s.gs := rfl
end SetDigits

section SetCfg
variable (s : State) (ts : BitVec 2) (gs : BitVec 1)
@[simp] theorem State.setCfg_cfg : (s.setCfg ts gs).cfg = cfgWord ts gs := rfl
@[simp] theorem State.setCfg_acc : (s.setCfg ts gs).acc = s.acc := rfl
@[simp] theorem State.setCfg_dcnt : (s.setCfg ts gs).dcnt = s.dcnt := rfl
@[simp] theorem State.setCfg_rq : (s.setCfg ts gs).rq = s.rq := rfl
@[simp] theorem State.setCfg_phase : (s.setCfg ts gs).phase = s.phase := rfl
@[simp] theorem State.setCfg_pins : (s.setCfg ts gs).pins = s.pins := rfl
@[simp] theorem State.setCfg_taken : (s.setCfg ts gs).taken = s.taken := rfl
end SetCfg

section ApplyReset
variable (s : State)
@[simp] theorem State.applyReset_cfg : s.applyReset.cfg = 0 := rfl
@[simp] theorem State.applyReset_acc : s.applyReset.acc = 0 := rfl
@[simp] theorem State.applyReset_dcnt : s.applyReset.dcnt = 0 := rfl
@[simp] theorem State.applyReset_rq : s.applyReset.rq = [] := rfl
@[simp] theorem State.applyReset_phase : s.applyReset.phase = .live := rfl
@[simp] theorem State.applyReset_pins : s.applyReset.pins = s.pins := rfl
@[simp] theorem State.applyReset_taken : s.applyReset.taken = s.taken := rfl
end ApplyReset

section Present
variable (s : State) (w : CommandWord)
@[simp] theorem State.present_pins : (s.present w).pins = presentEdge w :: s.pins := rfl
@[simp] theorem State.present_phase : (s.present w).phase = s.phase := rfl
@[simp] theorem State.present_rq : (s.present w).rq = s.rq := rfl
end Present

section ServeResponse
variable (s : State) (ready : Bool)

/-- What serving does, said once: the oldest response, if there is one and the host is ready, moves to the host. -/
theorem State.serveResponse_eq : s.serveResponse ready =
    { s with
      rq := if ready then s.rq.drop 1 else s.rq
      taken := if ready then s.taken ++ s.rq.take 1 else s.taken } := by
  obtain ⟨cfg, acc, dcnt, rq, phase, pins, taken⟩ := s
  cases ready <;> cases rq <;> simp [State.serveResponse]

@[simp] theorem State.serveResponse_cfg : (s.serveResponse ready).cfg = s.cfg := by rw [serveResponse_eq]
@[simp] theorem State.serveResponse_acc : (s.serveResponse ready).acc = s.acc := by rw [serveResponse_eq]
@[simp] theorem State.serveResponse_dcnt : (s.serveResponse ready).dcnt = s.dcnt := by rw [serveResponse_eq]
@[simp] theorem State.serveResponse_phase : (s.serveResponse ready).phase = s.phase := by rw [serveResponse_eq]
@[simp] theorem State.serveResponse_pins : (s.serveResponse ready).pins = s.pins := by rw [serveResponse_eq]
@[simp] theorem State.serveResponse_tsel : (s.serveResponse ready).tsel = s.tsel := by rw [serveResponse_eq]; rfl
theorem State.serveResponse_rq :
    (s.serveResponse ready).rq = if ready then s.rq.drop 1 else s.rq := by rw [serveResponse_eq]
theorem State.serveResponse_taken :
    (s.serveResponse ready).taken = if ready then s.taken ++ s.rq.take 1 else s.taken := by rw [serveResponse_eq]
end ServeResponse

end Sys2Proof.Machine
end

