-- ==== Sys2Proof/Laws/Ops.lean ====
section
/-! SUPPORT. One lemma for each shared operation, saying once all it can do: the fields of a command word and of a
response word, the CFG fields, the digits, the ROMs, the room in RQ, and the decoder's writes. -/

namespace Sys2Proof.Machine

/-! ### Bit fields, as numbers -/

/-- A concatenation as a number: the left part counts from the right part's width up. -/
theorem append_toNat {n m : Nat} (x : BitVec n) (y : BitVec m) : (x ++ y).toNat = x.toNat * 2 ^ m + y.toNat := by
  rw [BitVec.toNat_append, ← Nat.shiftLeft_add_eq_or_of_lt y.isLt, Nat.shiftLeft_eq]

/-- A field as a number. -/
theorem field_toNat {w : Nat} (x : BitVec w) (start len : Nat) :
    (x.extractLsb' start len).toNat = x.toNat / 2 ^ start % 2 ^ len := by
  rw [BitVec.extractLsb'_toNat, Nat.shiftRight_eq_div_pow]

theorem commandWord_toNat (op n : BitVec 4) (d : BitVec 32) :
    (commandWord op n d).toNat = op.toNat * 2 ^ 36 + n.toNat * 2 ^ 32 + d.toNat := by
  refine (append_toNat (op ++ n) d).trans ?_
  rw [append_toNat]
  omega

theorem opField_commandWord (op n : BitVec 4) (d : BitVec 32) : opField (commandWord op n d) = op := by
  apply BitVec.eq_of_toNat_eq
  rw [opField, field_toNat, commandWord_toNat]
  omega

theorem nField_commandWord (op n : BitVec 4) (d : BitVec 32) : nField (commandWord op n d) = n := by
  apply BitVec.eq_of_toNat_eq
  rw [nField, field_toNat, commandWord_toNat]
  omega

theorem dataField_commandWord (op n : BitVec 4) (d : BitVec 32) : dataField (commandWord op n d) = d := by
  apply BitVec.eq_of_toNat_eq
  rw [dataField, field_toNat, commandWord_toNat]
  omega

theorem packGroup_toNat (b0 b1 b2 b3 : Byte) :
    (packGroup b0 b1 b2 b3).toNat = b0.toNat * 2 ^ 24 + b1.toNat * 2 ^ 16 + b2.toNat * 2 ^ 8 + b3.toNat := by
  refine (append_toNat (b0 ++ b1 ++ b2) b3).trans ?_
  rw [append_toNat, append_toNat]
  omega

theorem packBytes_toNat (seq : List Byte) :
    (packBytes seq).toNat = (seq.getD 0 0).toNat * 2 ^ 32 + (seq.getD 1 0).toNat * 2 ^ 24 +
      (seq.getD 2 0).toNat * 2 ^ 16 + (seq.getD 3 0).toNat * 2 ^ 8 + (seq.getD 4 0).toNat := by
  refine (append_toNat (seq.getD 0 0 ++ seq.getD 1 0 ++ seq.getD 2 0 ++ seq.getD 3 0) (seq.getD 4 0)).trans ?_
  rw [append_toNat, append_toNat, append_toNat]
  omega

/-- A response word as a number (30_encoding.md R86). -/
theorem respWord_toNat (rc : ResultCode) (ovf : Bool) (seq : List Byte) :
    (respWord rc ovf seq).toNat =
      rc.code.toNat * 2 ^ 44 + (BitVec.ofBool ovf).toNat * 2 ^ 43 + seq.length % 8 * 2 ^ 40 + (packBytes seq).toNat := by
  refine (append_toNat (rc.code ++ BitVec.ofBool ovf ++ BitVec.ofNat 3 seq.length) (packBytes seq)).trans ?_
  rw [append_toNat, append_toNat, BitVec.toNat_ofNat]
  omega

/-! ### The fields of CFG -/

theorem tsel_of_cfgWord (ts : BitVec 2) (gs : BitVec 1) : (cfgWord ts gs).extractLsb' 1 2 = ts := by
  decide +revert

theorem gs_of_cfgWord (ts : BitVec 2) (gs : BitVec 1) : (cfgWord ts gs).extractLsb' 0 1 = gs := by
  decide +revert

theorem cfgWord_of_fields (c : BitVec 3) : cfgWord (c.extractLsb' 1 2) (c.extractLsb' 0 1) = c := by
  decide +revert

@[simp] theorem State.setCfg_tsel (s : State) (ts : BitVec 2) (gs : BitVec 1) : (s.setCfg ts gs).tsel = ts :=
  tsel_of_cfgWord ts gs

@[simp] theorem State.setCfg_gs (s : State) (ts : BitVec 2) (gs : BitVec 1) : (s.setCfg ts gs).gs = gs :=
  gs_of_cfgWord ts gs

/-! ### The fields of a response word -/

theorem rcOf_respWord (rc : ResultCode) (ovf : Bool) (seq : List Byte) : rcOf (respWord rc ovf seq) = rc.code := by
  apply BitVec.eq_of_toNat_eq
  have h1 := (BitVec.ofBool ovf).isLt
  have h2 := (packBytes seq).isLt
  rw [rcOf, field_toNat, respWord_toNat]
  omega

theorem ovfOf_respWord (rc : ResultCode) (ovf : Bool) (seq : List Byte) : ovfOf (respWord rc ovf seq) = ovf := by
  have h2 := (packBytes seq).isLt
  rw [ovfOf, BitVec.getLsbD, respWord_toNat, Nat.testBit_eq_decide_div_mod_eq]
  cases ovf <;> simp <;> omega

theorem cntOf_respWord (rc : ResultCode) (ovf : Bool) (seq : List Byte) :
    cntOf (respWord rc ovf seq) = seq.length % 8 := by
  have h2 := (packBytes seq).isLt
  rw [cntOf, field_toNat, respWord_toNat]
  omega

theorem byteOf_respWord (rc : ResultCode) (ovf : Bool) (seq : List Byte) (j : Nat) (hj : j < 5) :
    byteOf (respWord rc ovf seq) j = seq.getD j 0 := by
  apply BitVec.eq_of_toNat_eq
  rw [byteOf, field_toNat, respWord_toNat, packBytes_toNat]
  obtain rfl | rfl | rfl | rfl | rfl : j = 0 ∨ j = 1 ∨ j = 2 ∨ j = 3 ∨ j = 4 := by omega
  all_goals simp only [Nat.mul_zero, Nat.mul_one, Nat.sub_zero, Nat.reduceMul, Nat.reduceSub]; omega

/-- The valid bytes of a response are the sequence it was built from (30_encoding.md R86). -/
theorem dataBytes_respWord (rc : ResultCode) (ovf : Bool) (seq : List Byte) (h : seq.length ≤ 5) :
    dataBytes (respWord rc ovf seq) = seq := by
  rw [dataBytes, cntOf_respWord, Nat.mod_eq_of_lt (by omega)]
  apply List.ext_getElem (by simp)
  intro j h1 h2
  rw [List.getElem_map, List.getElem_range, byteOf_respWord _ _ _ _ (by omega), List.getD_eq_getElem _ _ h2]

theorem respWord_illegal : respWord .illegal false [] = 0x100000000000 := rfl

/-- Every response built from at most five bytes, ILLEGAL ones from none, is a good one (30_encoding.md R87 to R89). -/
theorem goodResponse_ok (ovf : Bool) (seq : List Byte) (h : seq.length ≤ 5) : GoodResponse (respWord .ok ovf seq) where
  rc := .inl (rcOf_respWord _ _ _)
  cnt := by rw [cntOf_respWord]; omega
  padding j hj h5 := by
    rw [cntOf_respWord] at hj
    rw [byteOf_respWord _ _ _ _ h5, List.getD_eq_default _ _ (by omega)]

theorem goodResponse_illegal : GoodResponse (respWord .illegal false []) where
  rc := .inr respWord_illegal
  cnt := by rw [cntOf_respWord]; simp
  padding j _ h5 := by rw [byteOf_respWord _ _ _ _ h5, List.getD_eq_default _ _ (by simp)]

/-! ### The bytes of a 32-bit value -/

theorem bytesOf_length (v : BitVec 32) (k : Nat) (h : k ≤ 4) : (bytesOf v k).length = k := by
  simp [bytesOf, h]

theorem bytesOf_packGroup (b0 b1 b2 b3 : Byte) (k : Nat) :
    bytesOf (packGroup b0 b1 b2 b3) k = [b0, b1, b2, b3].take k := by
  have h0 : (packGroup b0 b1 b2 b3).extractLsb' 24 8 = b0 := by
    apply BitVec.eq_of_toNat_eq; rw [field_toNat, packGroup_toNat]; omega
  have h1 : (packGroup b0 b1 b2 b3).extractLsb' 16 8 = b1 := by
    apply BitVec.eq_of_toNat_eq; rw [field_toNat, packGroup_toNat]; omega
  have h2 : (packGroup b0 b1 b2 b3).extractLsb' 8 8 = b2 := by
    apply BitVec.eq_of_toNat_eq; rw [field_toNat, packGroup_toNat]; omega
  have h3 : (packGroup b0 b1 b2 b3).extractLsb' 0 8 = b3 := by
    apply BitVec.eq_of_toNat_eq; rw [field_toNat, packGroup_toNat]; omega
  rw [bytesOf, h0, h1, h2, h3]

/-! ### The radix converter -/

theorem digit_val (w : BitVec 32) (i : Nat) : (digit w i).val = w.toNat / 85 ^ (4 - i) % 85 := rfl

/-! ### The ROMs -/

/-- TSEL names an image exactly where a ROM is selected (10_state.md R35). -/
theorem romOf_isSome (b : Build) (ts : BitVec 2) : (romOf b ts).isSome = tselExists b ts := by
  unfold romOf tselExists
  split <;> simp_all [Build.hasCustom]

theorem exists_romOf {b : Build} {ts : BitVec 2} (h : tselExists b ts = true) : ∃ rom, romOf b ts = some rom :=
  Option.isSome_iff_exists.mp ((romOf_isSome b ts).trans h)

/-- A digit the decoding ROM gives stands for the byte it was read for (10_state.md R42). -/
theorem encRom_of_decRom {rom : Rom} {sym : Byte} {d : Fin 85} (h : decRom rom sym = some d) : encRom rom d = sym := by
  simpa using List.find?_some h

theorem decRom_eq_none {rom : Rom} {sym : Byte} (h : decRom rom sym = none) (d : Fin 85) : encRom rom d ≠ sym := by
  simpa using List.find?_eq_none.mp h d (List.mem_finRange d)

/-! ### The room in RQ -/

/-- RQ has room exactly where it holds fewer than `spare + 1` responses (10_state.md R44). -/
theorem hasRoom_iff (rq : List ResponseWord) (spare : Nat) : hasRoom rq spare = true ↔ rq.length < spare + 1 := by
  induction rq generalizing spare with
  | nil => simp [hasRoom]
  | cons r rest ih =>
    cases spare with
    | zero => simp [hasRoom]
    | succ k => simp [hasRoom, ih]

theorem cmdReady_iff (b : Build) (s : State) : cmdReady b false s = true ↔ s.rq.length < b.respDepth := by
  simp [cmdReady, hasRoom_iff, Build.respDepth]

/-! ### Answering -/

/-- All `respondSymbols` can do: the truncated expansion through the selected ROM, or the named fault where TSEL selects
none. -/
theorem respondSymbols_cases (b : Build) (w : BitVec 32) (k : Nat) (s : State) :
    (∃ rom, romOf b s.tsel = some rom ∧
      respondSymbols b w k s = .next (s.respond .ok false (((digits5 w).take k).map (encRom rom)))) ∨
    (romOf b s.tsel = none ∧ respondSymbols b w k s = .fault .noRomImage) := by
  unfold respondSymbols
  cases h : romOf b s.tsel with
  | some rom => exact .inl ⟨rom, rfl, rfl⟩
  | none => exact .inr ⟨rfl, rfl⟩

/-- All `takeDigit` can do (41_decoder.md R153, R154). -/
theorem State.takeDigit_cases (s : State) (d : Fin 85) :
    (s.dcnt.toNat < 4 ∧ s.takeDigit d =
      .next ((s.setDigits (s.acc.toNat * 85 + d.val) (s.dcnt.toNat + 1)).respond .ok false [])) ∨
    (s.dcnt.toNat = 4 ∧ s.takeDigit d = .next (s.closeGroup (s.acc.toNat * 85 + d.val) 4)) ∨
    (4 < s.dcnt.toNat ∧ s.takeDigit d = .fault .digitCountOutOfRange) := by
  unfold State.takeDigit
  split
  · exact .inl ⟨‹_›, rfl⟩
  · split
    · exact .inr (.inl ⟨‹_›, rfl⟩)
    · exact .inr (.inr ⟨by omega, rfl⟩)

end Sys2Proof.Machine
end

