-- ==== Sys2Proof/Laws/Decode.lean ====
section
/-! SUPPORT. The command word as its three fields (30_encoding.md R80): taking it apart, putting it together, masking it
field by field, and what the decoder answers on it. -/

namespace Sys2Proof.Machine

/-- A word is its three fields. -/
theorem commandWord_fields (w : CommandWord) : commandWord (opField w) (nField w) (dataField w) = w := by
  apply BitVec.eq_of_toNat_eq
  rw [commandWord_toNat, opField, nField, dataField, field_toNat, field_toNat, field_toNat]
  have := w.isLt
  omega

/-- Every word is a triple of fields. -/
theorem exists_commandWord (w : CommandWord) : ∃ op n d, w = commandWord op n d :=
  ⟨_, _, _, (commandWord_fields w).symm⟩

theorem commandWord_inj {op n op' n' : BitVec 4} {d d' : BitVec 32} :
    commandWord op n d = commandWord op' n' d' ↔ op = op' ∧ n = n' ∧ d = d' := by
  refine ⟨fun h => ⟨?_, ?_, ?_⟩, by rintro ⟨rfl, rfl, rfl⟩; rfl⟩
  · simpa only [opField_commandWord] using congrArg opField h
  · simpa only [nField_commandWord] using congrArg nField h
  · simpa only [dataField_commandWord] using congrArg dataField h

/-- Masking a word masks each field. -/
theorem commandWord_and (op n op' n' : BitVec 4) (d d' : BitVec 32) :
    commandWord op n d &&& commandWord op' n' d' = commandWord (op &&& op') (n &&& n') (d &&& d') :=
  (BitVec.and_append (x₁ := op ++ n) (y₁ := d) (x₂ := op' ++ n') (y₂ := d')).trans
    (by rw [BitVec.and_append]; rfl)

/-- Four bytes put together are taken apart again. -/
theorem packGroup_fields (d : BitVec 32) :
    packGroup (d.extractLsb' 24 8) (d.extractLsb' 16 8) (d.extractLsb' 8 8) (d.extractLsb' 0 8) = d := by
  apply BitVec.eq_of_toNat_eq
  rw [packGroup_toNat, field_toNat, field_toNat, field_toNat, field_toNat]
  have := d.isLt
  omega

/-- A byte of the group as a field of DATA (20_memory.md R63). -/
theorem groupByte_commandWord (op n : BitVec 4) (d : BitVec 32) (j : Nat) :
    groupByte (commandWord op n d) j = d.extractLsb' (24 - 8 * j) 8 := by
  rw [groupByte, dataField_commandWord]

/-- What the decoder answers on a word given as its fields (30_encoding.md R81, R82). -/
theorem decode_commandWord (op n : BitVec 4) (d : BitVec 32) :
    decode (commandWord op n d) =
      match op.toNat with
      | 1 =>
        match n.toNat with
        | 1 => .ok (.enc1 (d.extractLsb' 24 8))
        | 2 => .ok (.enc2 (d.extractLsb' 24 8) (d.extractLsb' 16 8))
        | 3 => .ok (.enc3 (d.extractLsb' 24 8) (d.extractLsb' 16 8) (d.extractLsb' 8 8))
        | 4 => .ok (.enc4 (d.extractLsb' 24 8) (d.extractLsb' 16 8) (d.extractLsb' 8 8) (d.extractLsb' 0 8))
        | _ => .error (.badCount n)
      | 2 => .ok (.dec (d.extractLsb' 0 8))
      | 3 => .ok .dfl
      | 4 => .ok (.cfg (d.extractLsb' 1 2) (d.extractLsb' 0 1))
      | 5 => .ok .clr
      | 6 => .ok .stat
      | _ => .error (.reservedOp op) := by
  simp only [decode, decodeEnc, groupByte, symbolByte, tselField, gsField, opField_commandWord, nField_commandWord,
    dataField_commandWord] <;> rfl

/-- The mask that reads OP and N alone. -/
theorem mask_opN : (0xFF00000000 : CommandWord) = commandWord 0xF 0xF 0 := rfl

/-- The mask that reads OP alone. -/
theorem mask_op : (0xF000000000 : CommandWord) = commandWord 0xF 0 0 := rfl

theorem and_mask_opN (op n : BitVec 4) (d : BitVec 32) :
    commandWord op n d &&& 0xFF00000000 = commandWord op n 0 := by
  rw [mask_opN, commandWord_and]
  simp only [commandWord_inj]
  exact ⟨by decide +revert, by decide +revert, by simp⟩

theorem and_mask_op (op n : BitVec 4) (d : BitVec 32) :
    commandWord op n d &&& 0xF000000000 = commandWord op 0 0 := by
  rw [mask_op, commandWord_and]
  simp only [commandWord_inj]
  exact ⟨by decide +revert, by simp, by simp⟩

end Sys2Proof.Machine
end

