-- ==== Sys2Proof/Laws/Exec.lean ====
section
/-! SUPPORT. What an accepted command can do, and what a step can do, each said once. -/

namespace Sys2Proof.Machine

/-- The state a command leaves: registers of its own, one response more in RQ, everything else kept. -/
def State.answered (s : State) (c : BitVec 3) (a : BitVec 32) (d : BitVec 3) (r : ResponseWord) : State :=
  { s with cfg := c, acc := a, dcnt := d, rq := s.rq ++ [r] }

/-- What command `i` can answer in a build: ILLEGAL from a CFG that names no image, or OK with at most five bytes, where
OVF comes only from DEC and DFL (30_encoding.md R86, R87, 60_exceptions.md R220, R221). -/
def IsAnswer (b : Build) (i : Instr) (r : ResponseWord) : Prop :=
  (r = respWord .illegal false [] ∧ ∃ ts gs, i = .cfg ts gs ∧ tselExists b ts = false) ∨
  ∃ ovf seq, seq.length ≤ 5 ∧ r = respWord .ok ovf seq ∧ (ovf = true → i.mnemonic = .DEC ∨ i.mnemonic = .DFL)

theorem IsAnswer.good {b : Build} {i : Instr} {r : ResponseWord} (h : IsAnswer b i r) : GoodResponse r := by
  obtain ⟨rfl, -⟩ | ⟨ovf, seq, hlen, rfl, -⟩ := h
  · exact goodResponse_illegal
  · exact goodResponse_ok ovf seq hlen

theorem isAnswer_ok (b : Build) (i : Instr) (seq : List Byte) (h : seq.length ≤ 5) :
    IsAnswer b i (respWord .ok false seq) :=
  .inr ⟨false, seq, h, rfl, by simp⟩

theorem respondSymbols_next {b : Build} {w : BitVec 32} {k : Nat} {s t : State} (i : Instr)
    (h : respondSymbols b w k s = .next t) : ∃ r, IsAnswer b i r ∧ t = s.answered s.cfg s.acc s.dcnt r := by
  obtain ⟨rom, -, h'⟩ | ⟨-, h'⟩ := respondSymbols_cases b w k s
  · rw [h'] at h
    cases h
    exact ⟨_, isAnswer_ok b i _ (by simp [digits5]), rfl⟩
  · rw [h'] at h
    cases h

theorem State.takeDigit_next {s t : State} {d : Fin 85} (b : Build) (sym : Byte) (h : s.takeDigit d = .next t) :
    ∃ r, IsAnswer b (.dec sym) r ∧ t = s.answered s.cfg t.acc t.dcnt r := by
  obtain ⟨-, h'⟩ | ⟨-, h'⟩ | ⟨-, h'⟩ := s.takeDigit_cases d
  · rw [h'] at h
    cases h
    exact ⟨_, isAnswer_ok b _ [] (by simp), rfl⟩
  · rw [h'] at h
    cases h
    exact ⟨_, .inr ⟨_, bytesOf _ 4, by rw [bytesOf_length _ _ (by omega)]; omega, rfl, fun _ => .inl rfl⟩, rfl⟩
  · rw [h'] at h
    cases h

/-- Everything a command can do when it answers a next state: it writes CFG, ACC and DCNT at most, and adds one response
to RQ. -/
theorem exec_next {i : Instr} {s t : State} (h : exec i s = .next t) :
    ∃ r, IsAnswer Config.build i r ∧ t = s.answered t.cfg t.acc t.dcnt r := by
  cases i with
  | enc1 b0 =>
    obtain ⟨r, hr, rfl⟩ := respondSymbols_next (.enc1 b0) h
    exact ⟨r, hr, rfl⟩
  | enc2 b0 b1 =>
    obtain ⟨r, hr, rfl⟩ := respondSymbols_next (.enc2 b0 b1) h
    exact ⟨r, hr, rfl⟩
  | enc3 b0 b1 b2 =>
    obtain ⟨r, hr, rfl⟩ := respondSymbols_next (.enc3 b0 b1 b2) h
    exact ⟨r, hr, rfl⟩
  | enc4 b0 b1 b2 b3 =>
    simp only [exec, execEnc4, enc4On] at h
    split at h
    · cases h; exact ⟨_, isAnswer_ok _ _ [zSym] (by simp), rfl⟩
    · split at h
      · cases h; exact ⟨_, isAnswer_ok _ _ [ySym] (by simp), rfl⟩
      · obtain ⟨r, hr, rfl⟩ := respondSymbols_next (.enc4 b0 b1 b2 b3) h
        exact ⟨r, hr, rfl⟩
  | dec sym =>
    simp only [exec, execDec, decOn] at h
    split at h
    · cases h; exact ⟨_, isAnswer_ok _ _ [0, 0, 0, 0] (by simp), rfl⟩
    · split at h
      · cases h; exact ⟨_, isAnswer_ok _ _ [0x20, 0x20, 0x20, 0x20] (by simp), rfl⟩
      · split at h
        · cases h
        · split at h
          · obtain ⟨r, hr, ht⟩ := State.takeDigit_next Config.build sym h
            rw [ht]; exact ⟨r, hr, rfl⟩
          · cases h; exact ⟨_, isAnswer_ok _ _ [] (by simp), rfl⟩
  | dfl =>
    simp only [exec, execDfl] at h
    split at h
    · cases h; exact ⟨_, isAnswer_ok _ _ [] (by simp), rfl⟩
    · split at h
      · cases h
        exact ⟨_, .inr ⟨_, bytesOf _ (s.dcnt.toNat - 1), by rw [bytesOf_length _ _ (by omega)]; omega, rfl,
          fun _ => .inr rfl⟩, rfl⟩
      · cases h
  | cfg ts gs =>
    simp only [exec, execCfg, cfgOn] at h
    cases hts : tselExists Config.build ts with
    | true =>
      rw [if_pos hts] at h
      cases h; exact ⟨_, isAnswer_ok _ _ [] (by simp), rfl⟩
    | false =>
      rw [if_neg (by simp [hts])] at h
      cases h; exact ⟨_, .inl ⟨rfl, ts, gs, rfl, hts⟩, rfl⟩
  | clr => cases h; exact ⟨_, isAnswer_ok _ _ [] (by simp), rfl⟩
  | stat => cases h; exact ⟨_, isAnswer_ok _ _ (statBytes _ s) (by simp [statBytes]), rfl⟩

/-- An edge without reset after the first reset, where the step answers a next state: nothing accepted, a word that spells
a command, or a word that spells none. -/
theorem liveEdge_cases {e : PortEdge} {s t : State} (h : liveEdge Config.build exec e s = .next t) :
    (accepted Config.build e s = none ∧ t = s.serveResponse e.rspReady) ∨
    (∃ w i, accepted Config.build e s = some w ∧ decode w = .ok i ∧ exec i (s.serveResponse e.rspReady) = .next t) ∨
    (∃ w err, accepted Config.build e s = some w ∧ decode w = .error err ∧
      t = (s.serveResponse e.rspReady).raiseIllegal) := by
  unfold liveEdge at h
  cases ha : accepted Config.build e s with
  | none =>
    rw [ha] at h
    cases h
    exact .inl ⟨rfl, rfl⟩
  | some w =>
    simp only [ha, runWord] at h
    cases hd : decode w with
    | ok i =>
      rw [hd] at h
      exact .inr (.inl ⟨w, i, rfl, hd, h⟩)
    | error err =>
      rw [hd] at h
      cases h
      exact .inr (.inr ⟨w, err, rfl, hd, rfl⟩)

/-- Everything a step can do when it answers a next state: no edge to come, a reset edge, an edge before the first reset
that presents no command, or a live edge. -/
theorem step_cases {s t : State} (h : step s = .next t) :
    (s.pins = [] ∧ t = s) ∨
    ∃ e later, s.pins = e :: later ∧
      ((e.rst = true ∧ t = State.applyReset { s with pins := later }) ∨
       (e.rst = false ∧ s.phase = .preReset ∧ e.cmd = none ∧ t = { s with pins := later }) ∨
       (e.rst = false ∧ s.phase = .live ∧ liveEdge Config.build exec e { s with pins := later } = .next t)) := by
  unfold step clock at h
  cases hp : s.pins with
  | nil =>
    rw [hp] at h
    cases h
    exact .inl ⟨rfl, rfl⟩
  | cons e later =>
    refine .inr ⟨e, later, rfl, ?_⟩
    simp only [hp, onEdge] at h
    cases hr : e.rst with
    | true =>
      simp only [hr] at h
      cases h
      exact .inl ⟨rfl, rfl⟩
    | false =>
      simp only [hr] at h
      cases hph : s.phase with
      | preReset =>
        simp only [hph, preResetEdge] at h
        cases hc : e.cmd with
        | none =>
          rw [hc] at h
          cases h
          exact .inr (.inl ⟨rfl, rfl, rfl, rfl⟩)
        | some w =>
          rw [hc] at h
          cases h
      | live =>
        simp only [hph] at h
        exact .inr (.inr ⟨rfl, rfl, h⟩)

/-- An accepted command was presented while RQ had room (70_reset_and_hazards.md R271). -/
theorem accepted_some {b : Build} {e : PortEdge} {s : State} {w : CommandWord} (h : accepted b e s = some w) :
    e.cmd = some w ∧ cmdReady b e.rst s = true := by
  unfold accepted at h
  cases hc : cmdReady b e.rst s with
  | true => rw [hc] at h; exact ⟨h, rfl⟩
  | false => rw [hc] at h; cases h

end Sys2Proof.Machine
end

