-- ==== Sys2Proof/Laws/PerInstr.lean ====
section
/-! SUPPORT. Statements about every instruction as syntax, one lemma per constructor. Family `RowMatch`: the encoding of an
instruction matches its row of the opcode map (30_encoding.md R98), with every bit its command does not read written as
zero (R99). -/

namespace Sys2Proof.Laws.RowMatch

open Sys2Proof.Machine

/-- The encoding matches the instruction's own row, and holds no bit outside those the command reads. -/
def Statement (i : Instr) : Prop :=
  (∃ r ∈ opcodeMap, r.name = i.mnemonic ∧ r.matchesWord (encode i) = true) ∧
  encode i &&& i.mnemonic.readBits = encode i

theorem enc1 (b0 : Byte) : Statement (.enc1 b0) := by
  refine ⟨⟨⟨.ENC1, 0x1100000000, 0xFF00000000⟩, by simp [opcodeMap], rfl, ?_⟩, ?_⟩
  · rw [OpcodeRow.matchesWord, beq_iff_eq]
    exact and_mask_opN _ _ _
  · have h : (b0 ++ 0#24) &&& (0xFF#8 ++ 0#24) = b0 ++ 0#24 := by
      rw [BitVec.and_append, show (0xFF#8) = BitVec.allOnes 8 from rfl, BitVec.and_allOnes, BitVec.and_self]
    exact (commandWord_and 1 1 0xF 0xF _ (0xFF#8 ++ 0#24)).trans (by rw [h]; rfl)

theorem enc2 (b0 b1 : Byte) : Statement (.enc2 b0 b1) := by
  refine ⟨⟨⟨.ENC2, 0x1200000000, 0xFF00000000⟩, by simp [opcodeMap], rfl, ?_⟩, ?_⟩
  · rw [OpcodeRow.matchesWord, beq_iff_eq]
    exact and_mask_opN _ _ _
  · have h : (b0 ++ b1 ++ 0#16) &&& (0xFFFF#16 ++ 0#16) = b0 ++ b1 ++ 0#16 := by
      rw [BitVec.and_append, show (0xFFFF#16) = BitVec.allOnes 16 from rfl, BitVec.and_allOnes, BitVec.and_self]
    exact (commandWord_and 1 2 0xF 0xF _ (0xFFFF#16 ++ 0#16)).trans (by rw [h]; rfl)

theorem enc3 (b0 b1 b2 : Byte) : Statement (.enc3 b0 b1 b2) := by
  refine ⟨⟨⟨.ENC3, 0x1300000000, 0xFF00000000⟩, by simp [opcodeMap], rfl, ?_⟩, ?_⟩
  · rw [OpcodeRow.matchesWord, beq_iff_eq]
    exact and_mask_opN _ _ _
  · have h : (b0 ++ b1 ++ b2 ++ 0#8) &&& (0xFFFFFF#24 ++ 0#8) = b0 ++ b1 ++ b2 ++ 0#8 := by
      rw [BitVec.and_append, show (0xFFFFFF#24) = BitVec.allOnes 24 from rfl, BitVec.and_allOnes, BitVec.and_self]
    exact (commandWord_and 1 3 0xF 0xF _ (0xFFFFFF#24 ++ 0#8)).trans (by rw [h]; rfl)

theorem enc4 (b0 b1 b2 b3 : Byte) : Statement (.enc4 b0 b1 b2 b3) := by
  refine ⟨⟨⟨.ENC4, 0x1400000000, 0xFF00000000⟩, by simp [opcodeMap], rfl, ?_⟩, ?_⟩
  · rw [OpcodeRow.matchesWord, beq_iff_eq]
    exact and_mask_opN _ _ _
  · exact BitVec.and_allOnes

theorem dec (sym : Byte) : Statement (.dec sym) := by
  refine ⟨⟨⟨.DEC, 0x2000000000, 0xF000000000⟩, by simp [opcodeMap], rfl, ?_⟩, ?_⟩
  · rw [OpcodeRow.matchesWord, beq_iff_eq]
    exact and_mask_op _ _ _
  · have h : (0#24 ++ sym) &&& (0#24 ++ 0xFF#8) = 0#24 ++ sym := by
      rw [BitVec.and_append, show (0xFF#8) = BitVec.allOnes 8 from rfl, BitVec.and_allOnes, BitVec.and_self]
    exact (commandWord_and 2 0 0xF 0 _ (0#24 ++ 0xFF#8)).trans (by rw [h]; rfl)

theorem dfl : Statement .dfl :=
  ⟨⟨⟨.DFL, 0x3000000000, 0xF000000000⟩, by simp [opcodeMap], rfl, rfl⟩, rfl⟩

theorem cfg (ts : BitVec 2) (gs : BitVec 1) : Statement (.cfg ts gs) := by
  refine ⟨⟨⟨.CFG, 0x4000000000, 0xF000000000⟩, by simp [opcodeMap], rfl, ?_⟩, ?_⟩
  · rw [OpcodeRow.matchesWord, beq_iff_eq]
    exact and_mask_op _ _ _
  · decide +revert

theorem clr : Statement .clr :=
  ⟨⟨⟨.CLR, 0x5000000000, 0xF000000000⟩, by simp [opcodeMap], rfl, rfl⟩, rfl⟩

theorem stat : Statement .stat :=
  ⟨⟨⟨.STAT, 0x6000000000, 0xF000000000⟩, by simp [opcodeMap], rfl, rfl⟩, rfl⟩

end Sys2Proof.Laws.RowMatch
end

