-- ==== Sys2Proof/Tests/Slice0.lean ====
section
/-! SUPPORT. Tests. Expected values are the spec's own: 95_test_vectors.md (vectors W, E, V, K, X and programs P) or the
rule named. Each is one step, one decode or one check. The last section gives, for every obligation with hypotheses, a
state and operands that meet them. -/

namespace Sys2Proof.Tests

open Sys2Proof.Machine

/-! ## Helpers -/

/-- The next state of an outcome. -/
def nextOf : Host.Outcome State Fault Refusal → Option State
  | .next s => some s
  | .fault _ => none
  | .refused _ => none

/-- What the vectors list: the response, then `TSEL GS ACC DCNT`. -/
def row (s : State) : Option ResponseWord × Nat × Nat × Nat × Nat :=
  (s.rq.getLast?, s.tsel.toNat, s.gs.toNat, s.acc.toNat, s.dcnt.toNat)

/-- One step on which the host presents `w`. -/
def stepRow (s : State) (w : CommandWord) : Option (Option ResponseWord × Nat × Nat × Nat × Nat) :=
  (nextOf (step (s.present w))).map row

/-- A state right after reset but for the four values the vectors list. -/
def vec (tsel gs acc dcnt : Nat) : State :=
  { State.reset with
    cfg := cfgWord (BitVec.ofNat 2 tsel) (BitVec.ofNat 1 gs), acc := BitVec.ofNat 32 acc, dcnt := BitVec.ofNat 3 dcnt }

/-- A build without CUSTOM. -/
def plain : Build := { custom := none, spareDepth := 0, latLess1 := 0 }

/-- The parameters of program P7: `CUSTOM_TABLE[i] = 0x80 + i`. -/
def p7 : Params :=
  { hasCustom := true, customTable := (List.range 85).map fun i => BitVec.ofNat 8 (0x80 + i), lat := 1, respDepth := 1 }

/-- What a command answers in the build of P7. -/
def onP7 (f : Build → Host.Outcome State Fault Refusal) : Option (Option ResponseWord × Nat × Nat × Nat × Nat) :=
  (p7.build?.bind fun b => nextOf (f b)).map row

/-- Some response, for the states that need a queue that is not empty. -/
def someResponse : ResponseWord := 0x046561737900

/-! ## Decoding: words written out from 30_encoding.md R80 to R83 -/

/-- E19: OP 0001, N 0001, DATA 0x21FFFFFF. -/
theorem test_decode_enc1 : decode (0b0001#4 ++ 0b0001#4 ++ 0x21FFFFFF#32) = .ok (.enc1 0x21) := by decide

/-- OP 0001, N 0010, DATA 0x1234FFFF. -/
theorem test_decode_enc2 : decode (0b0001#4 ++ 0b0010#4 ++ 0x1234FFFF#32) = .ok (.enc2 0x12 0x34) := by decide

/-- OP 0001, N 0011, DATA 0x123456FF. -/
theorem test_decode_enc3 : decode (0b0001#4 ++ 0b0011#4 ++ 0x123456FF#32) = .ok (.enc3 0x12 0x34 0x56) := by decide

/-- E6: OP 0001, N 0100, DATA "easy". -/
theorem test_decode_enc4 : decode (0b0001#4 ++ 0b0100#4 ++ 0x65617379#32) = .ok (.enc4 0x65 0x61 0x73 0x79) := by decide

/-- K13: OP 0010, N and DATA[31:8] ignored. -/
theorem test_decode_dec : decode (0b0010#4 ++ 0b1111#4 ++ 0x12345641#32) = .ok (.dec 0x41) := by decide

/-- K14: OP 0011. -/
theorem test_decode_dfl : decode (0b0011#4 ++ 0b1111#4 ++ 0xFFFFFFFF#32) = .ok .dfl := by decide

/-- OP 0100, TSEL 01 in DATA[2:1], GS 0 in DATA[0], all else set. -/
theorem test_decode_cfg : decode (0b0100#4 ++ 0b1111#4 ++ 0x1FFFFFFF#29 ++ 0b01#2 ++ 0b0#1) = .ok (.cfg 1 0) := by decide

/-- K8: OP 0101. -/
theorem test_decode_clr : decode (0b0101#4 ++ 0b1111#4 ++ 0xFFFFFFFF#32) = .ok .clr := by decide

/-- K12: OP 0110. -/
theorem test_decode_stat : decode (0b0110#4 ++ 0b1111#4 ++ 0x12345678#32) = .ok .stat := by decide

/-- X1 to X3 and X9: the reserved OPs. -/
theorem test_decode_reserved_ops :
    ∀ op : BitVec 4, op.toNat = 0 ∨ 7 ≤ op.toNat → decode (commandWord op 1 0) = .error (.reservedOp op) := by decide

/-- X4 to X6: ENC with N = 0 or N >= 5. -/
theorem test_decode_bad_counts :
    ∀ n : BitVec 4, n.toNat = 0 ∨ 5 ≤ n.toNat → decode (commandWord 1 n 0x12345678) = .error (.badCount n) := by decide

/-- The host's form of a word, E6. -/
theorem test_decode_table_word : decodeTableWord 40 0x1465617379 = some (.enc4 0x65 0x61 0x73 0x79) := by decide

/-- A row given fewer bits has zeros above them. -/
theorem test_decode_table_word_short : decodeTableWord 8 0x1465617379 = none := by decide

/-! ## Well-formedness -/

theorem test_params_p7_accepted : p7.wf = true ∧ p7.build?.isSome = true := by decide

/-- 00_scope.md R7: a table with duplicates is refused. -/
theorem test_params_duplicates_refused :
    let p : Params := { p7 with customTable := List.replicate 85 0x21 }
    p.wf = false ∧ p.build?.isNone = true := by decide

/-- 00_scope.md R6: a table has exactly 85 entries. -/
theorem test_params_short_table_refused :
    let p : Params := { p7 with customTable := p7.customTable.take 84 }
    p.wf = false ∧ p.build?.isNone = true := by decide

/-- 00_scope.md R6: LAT is at least 1. -/
theorem test_params_lat_refused : ({ p7 with lat := 0 } : Params).wf = false := by decide

/-- 00_scope.md R6: RESP_DEPTH is at least 1. -/
theorem test_params_depth_refused : ({ p7 with respDepth := 0 } : Params).wf = false := by decide

/-- 00_scope.md R6: without HAS_CUSTOM the table has no meaning, and is not checked. -/
theorem test_params_table_unused : ({ p7 with hasCustom := false, customTable := [] } : Params).wf = true := by decide

/-- 42_control.md R181: TSEL = 3 exists in no build. -/
theorem test_wf_cfg_3_refused : ∀ gs, (Instr.cfg 3 gs).wf plain = false ∧ (Instr.cfg 3 gs).wf Config.build = false :=
  fun _ => ⟨rfl, rfl⟩

/-- 42_control.md R181: TSEL = 2 needs CUSTOM. -/
theorem test_wf_cfg_custom_refused :
    (Instr.cfg 2 0).wf plain = false ∧ p7.build?.map (fun b => (Instr.cfg 2 0).wf b) = some true := by decide

/-- 30_encoding.md R99: three bytes after ENC2, a byte above 0xFF, GS = 2, TSEL = 4, a word of 41 bits, a string that is
not ASCII. -/
theorem test_assemble_refuses :
    assemble (.enc 2 (.bytes [1, 2, 3])) = none ∧ assemble (.dec (.bytes [256])) = none ∧
    assemble (.cfg .STANDARD 2) = none ∧ assemble (.cfg (.number 4) 0) = none ∧
    assemble (.word 0x10000000000) = none ∧ assemble (.decs ['é']) = none := by decide

/-- The examples of 40_encoder.md R122, 42_control.md R180 and 30_encoding.md R99. -/
theorem test_assemble_lines :
    assemble (.enc 4 (.quoted ['e', 'a', 's', 'y'])) = some [0x1465617379] ∧
    assemble (.cfg .ZEROMQ 0) = some [0x4000000002] ∧ assemble (.dec (.quoted ['A'])) = some [0x2000000041] ∧
    assemble (.word 0x4FFFFFFFF3) = some [0x4FFFFFFFF3] := by decide

/-- P1 and P2's `DECM` form. -/
theorem test_assemble_pseudo :
    assemble (.encm (.quoted ['m', 'o', 'd', 'e', 'r', 'a', 't', 'e', '!'])) =
      some [0x146D6F6465, 0x1472617465, 0x1121000000] ∧
    assemble (.decm ['5', 'l']) = some [0x2000000035, 0x200000006C, 0x3000000000] := by decide

/-! ## The commands, at most two each -/

/-- E19: the low DATA bytes are masked. -/
theorem test_enc1_masked : stepRow State.reset 0x1121FFFFFF = some (some 0x022B54000000, 0, 0, 0, 0) := by decide

/-- E16. -/
theorem test_enc1_ff : stepRow State.reset 0x11FF000000 = some (some 0x027272000000, 0, 0, 0, 0) := by decide

/-- E12. -/
theorem test_enc2_zeros : stepRow State.reset 0x1200000000 = some (some 0x032121210000, 0, 0, 0, 0) := by decide

/-- E25. -/
theorem test_enc2_zeromq : stepRow (vec 1 0 0 0) 0x1221210000 = some (some 0x036154330000, 1, 0, 0, 0) := by decide

/-- E14: no shortcut for a partial group. -/
theorem test_enc3_spaces : stepRow (vec 0 1 0 0) 0x1320202000 = some (some 0x042B3C566400, 0, 1, 0, 0) := by decide

/-- E18. -/
theorem test_enc3_ff : stepRow State.reset 0x13FFFFFF00 = some (some 0x047338572A00, 0, 0, 0, 0) := by decide

/-- W6, E21, between two digits of a decode group. -/
theorem test_enc4_zeromq : stepRow (vec 1 0 2769 2) 0x1465617379 = some (some 0x05774E505539, 1, 0, 2769, 2) := by decide

/-- E4. -/
theorem test_enc4_spaces : stepRow (vec 0 1 0 0) 0x1420202020 = some (some 0x017900000000, 0, 1, 0, 0) := by decide

/-- V4, P4 step 11: the largest value, OVF. -/
theorem test_dec_overflow : stepRow (vec 0 0 52200624 4) 0x2000000075 = some (some 0x0C08780EC400, 0, 0, 0, 0) := by decide

/-- P5 step 7: `z` is the shortcut although it is ZEROMQ's digit 35. -/
theorem test_dec_zeromq_shortcut : stepRow (vec 1 0 0 4) 0x200000007A = some (some 0x040000000000, 1, 0, 0, 4) := by decide

/-- P4 step 14. -/
theorem test_dfl_tail : stepRow (vec 0 0 1775 2) 0x3000000000 = some (some 0x014100000000, 0, 0, 0, 0) := by decide

/-- V14: a 1-digit tail, digit 82. -/
theorem test_dfl_one_digit : stepRow (vec 0 0 82 1) 0x3000000000 = some (some 0x080000000000, 0, 0, 0, 0) := by decide

/-- K2: ignored bits. -/
theorem test_cfg_ignored_bits : stepRow State.reset 0x4FFFFFFFF3 = some (some 0x000000000000, 1, 1, 0, 0) := by decide

/-- K6: GS of a refused write is not applied. -/
theorem test_cfg_refused : stepRow (vec 1 0 32 1) 0x4000000007 = some (some 0x100000000000, 1, 0, 32, 1) := by decide

/-- P4 step 5. -/
theorem test_clr : stepRow (vec 0 1 2769 2) 0x5000000000 = some (some 0x000000000000, 0, 1, 0, 0) := by decide

/-- K11, without CUSTOM. -/
theorem test_stat : row (statOn plain (vec 1 1 0 4)) = (some 0x030304000000, 1, 1, 0, 4) := by decide

/-- P7 step 3, with CUSTOM. -/
theorem test_stat_custom : onP7 (fun b => .next (statOn b (vec 2 1 0 0))) = some (some 0x030500010000, 2, 1, 0, 0) := by
  decide

/-- X1 and X5: an illegal word keeps the partial group. -/
theorem test_illegal :
    stepRow (vec 1 1 32 1) 0x0000000000 = some (some 0x100000000000, 1, 1, 32, 1) ∧
    stepRow (vec 1 1 32 1) 0x1512345678 = some (some 0x100000000000, 1, 1, 32, 1) := by decide

/-! ## The CUSTOM image: K4, K5, P7 -/

theorem test_custom_cfg :
    row (cfgOn plain 2 0 State.reset) = (some 0x100000000000, 0, 0, 0, 0) ∧
    onP7 (fun b => .next (cfgOn b 2 0 State.reset)) = some (some 0x000000000000, 2, 0, 0, 0) := by decide

theorem test_custom_enc4 :
    onP7 (fun b => enc4On b 0x65 0x61 0x73 0x79 (vec 2 1 0 0)) = some (some 0x05A0B1B3B889, 2, 1, 0, 0) := by decide

theorem test_custom_dec :
    onP7 (fun b => decOn b 0x80 (vec 2 1 0 0)) = some (some 0x000000000000, 2, 1, 0, 1) ∧
    onP7 (fun b => decOn b 0x21 (vec 2 1 0 1)) = some (some 0x000000000000, 2, 1, 0, 1) := by decide

/-! ## The ports and the host -/

/-- 70_reset_and_hazards.md R252. -/
theorem test_refused_before_reset :
    step (({ State.reset with phase := .preReset } : State).present 0x6000000000) = .refused .commandBeforeReset := rfl

/-- 70_reset_and_hazards.md R250: reset discards what was not taken. -/
theorem test_reset_edge :
    step { vec 1 1 32 1 with rq := [someResponse], pins := [resetEdge] } = .next State.reset := rfl

/-- 10_state.md R44: room for exactly `spare + 1` responses. -/
theorem test_room : ∀ r, hasRoom [r] 1 = true ∧ hasRoom [r, r] 1 = false := fun _ => ⟨rfl, rfl⟩

/-- 47_host_sequences.md R204: W4's mismatch and its body, and the length-3 text `<~>`. -/
theorem test_markers :
    stripMarkers [0x3C, 0x7E, 0x41, 0x52, 0x54, 0x59, 0x2A, 0x7E] = none ∧
    stripMarkers [0x3C, 0x7E, 0x41, 0x52, 0x54, 0x59, 0x2A, 0x7E, 0x3E] = some [0x41, 0x52, 0x54, 0x59, 0x2A] ∧
    stripMarkers [0x3C, 0x7E, 0x3E] = none ∧ stripMarkers [0x41, 0x7E, 0x3E] = some [0x41, 0x7E, 0x3E] := by decide

/-- 47_host_sequences.md R203. -/
theorem test_variants :
    Variant.delimiter.configure = Variant.standard.configure ∧ wrap Variant.delimiter.wraps [] = [0x3C, 0x7E, 0x7E, 0x3E] ∧
    Variant.zeromq.configure = .cfg 1 0 := by decide

/-! ## Witnesses: for each obligation with hypotheses, a state and operands that meet them together -/

/-- A state in the middle of a decode group, ZEROMQ and GS = 1. -/
def mid : State := vec 1 1 2769 2

/-- A state in which TSEL names no image in any build. -/
def noImage : State := vec 3 0 0 0

theorem test_inv_reset : Inv Config.build State.reset :=
  ⟨rfl, by decide, by decide, Nat.zero_le _, fun _ h => nomatch h⟩

theorem test_inv_mid : Inv Config.build mid := ⟨rfl, by decide, by decide, Nat.zero_le _, fun _ h => nomatch h⟩

theorem test_idle_reset : Idle Config.build State.reset := ⟨test_inv_reset, rfl, rfl⟩

theorem test_idle_mid : Idle Config.build mid := ⟨test_inv_mid, rfl, rfl⟩

/-- An empty queue has room in every build. -/
theorem test_room_at_reset : State.reset.rq.length < Config.build.respDepth := Nat.succ_pos _

theorem test_witness_ResetEdgeResetsEveryStateElement :
    ({ mid with phase := .preReset, pins := [resetEdge] } : State).pins = resetEdge :: [] ∧ resetEdge.rst = true :=
  ⟨rfl, rfl⟩

theorem test_witness_CommandBeforeFirstResetIsRefused :
    let s := ({ State.reset with phase := .preReset } : State).present 0x6000000000
    s.phase = .preReset ∧ s.pins = presentEdge 0x6000000000 :: [] ∧ (presentEdge 0x6000000000).rst = false ∧
      (presentEdge 0x6000000000).cmd = some 0x6000000000 := ⟨rfl, rfl, rfl, rfl⟩

theorem test_witness_StepRunsTheDecodedCommand :
    let s := mid.present 0x1465617379
    (s.phase = .live ∧ s.pins = presentEdge 0x1465617379 :: [] ∧ (presentEdge 0x1465617379).rst = false ∧
      (presentEdge 0x1465617379).cmd = some 0x1465617379 ∧ s.rq.length < Config.build.respDepth ∧
      decode 0x1465617379 = .ok (.enc4 0x65 0x61 0x73 0x79)) ∧
    (mid.phase = .live ∧ mid.rq.length < Config.build.respDepth ∧
      decodeTableWord 40 0x1465617379 = some (.enc4 0x65 0x61 0x73 0x79)) :=
  ⟨⟨rfl, rfl, rfl, rfl, Nat.succ_pos _, by decide⟩, rfl, Nat.succ_pos _, by decide⟩

/-- Whatever `RESP_DEPTH` is: one response waits and is taken, no command is presented. -/
theorem test_witness_ResponsesLeaveInOrderAndNoneIsDropped :
    let s : State := { mid with rq := [someResponse], pins := [takeEdge] }
    s.phase = .live ∧ s.pins = takeEdge :: [] ∧ takeEdge.rst = false ∧ s.rq.length ≤ Config.build.respDepth ∧
      step s = .next { mid with rq := [], pins := [], taken := [someResponse] } := by
  refine ⟨rfl, rfl, rfl, Nat.succ_le_succ (Nat.zero_le _), ?_⟩
  have h : ∀ s, accepted Config.build takeEdge s = none := fun s => by
    unfold accepted
    cases cmdReady Config.build takeEdge.rst s <;> rfl
  simp only [step, clock, onEdge, takeEdge, mid, vec, State.reset] at h ⊢
  simp only [liveEdge, h, State.serveResponse, List.nil_append]

theorem test_witness_FullResponseQueueStallsCommands :
    let full := List.replicate Config.build.respDepth someResponse
    let s : State := { mid with rq := full, pins := [presentEdge 0x6000000000] }
    s.phase = .live ∧ s.pins = presentEdge 0x6000000000 :: [] ∧ (presentEdge 0x6000000000).rst = false ∧
      Config.build.respDepth ≤ s.rq.length := ⟨rfl, rfl, rfl, by simp⟩

/-- The edge drives nothing at all. -/
def idleEdge : PortEdge := { rst := false, cmd := none, rspReady := false }

theorem test_witness_UntakenResponseHoldsSteady :
    let s : State := { mid with rq := [someResponse], pins := [idleEdge] }
    s.phase = .live ∧ s.pins = idleEdge :: [] ∧ idleEdge.rst = false ∧ idleEdge.rspReady = false ∧
      rspValid false s = true ∧ rspWord s = some someResponse ∧ step s = .next { s with pins := [] } := by
  refine ⟨rfl, rfl, rfl, rfl, rfl, rfl, ?_⟩
  have h : ∀ s, accepted Config.build idleEdge s = none := fun s => by
    unfold accepted
    cases cmdReady Config.build idleEdge.rst s <;> rfl
  simp only [step, clock, onEdge, idleEdge, mid, vec, State.reset] at h ⊢
  simp only [liveEdge, h, State.serveResponse]

theorem test_witness_IdleBlockKeepsItsState :
    (({ mid with pins := [idleEdge] } : State).pins = idleEdge :: [] ∧ idleEdge.rst = false ∧ idleEdge.cmd = none ∧
      idleEdge.rspReady = false) ∧ State.reset.pins = [] := ⟨⟨rfl, rfl, rfl, rfl⟩, rfl⟩

theorem test_witness_EveryStepKeepsTheInvariant :
    Inv Config.build (mid.present 0x2000000041) ∧
      step (mid.present 0x2000000041) = .next { vec 1 1 235401 3 with rq := [0x000000000000] } :=
  ⟨⟨rfl, by decide, by decide, Nat.zero_le _, fun _ h => nomatch h⟩, rfl⟩

theorem test_witness_ResetBlockNeverStops : Inv Config.build mid ∧ mid.phase = .live := ⟨test_inv_mid, rfl⟩

/-- One word at each end of each clause of 60_exceptions.md R220. The last needs a build without CUSTOM. -/
theorem test_witness_IllegalWordsAnswerIllegalAndChangeNothing :
    mid.phase = .live ∧ mid.rq.length < Config.build.respDepth ∧
    IllegalWord Config.build 0x0FFFFFFFFF ∧ IllegalWord Config.build 0x7000000000 ∧
    IllegalWord Config.build 0xFFFFFFFFFF ∧ IllegalWord Config.build 0x1000000000 ∧
    IllegalWord Config.build 0x1500000000 ∧ IllegalWord Config.build 0x1F00000000 ∧
    IllegalWord Config.build 0x4000000006 ∧ IllegalWord Config.build 0x4000000007 ∧
    IllegalWord plain 0x4000000004 ∧ IllegalWord plain 0x4000000005 :=
  ⟨rfl, Nat.succ_pos _, .inl rfl, .inr (.inl (by decide)), .inr (.inl (by decide)), .inr (.inr (.inl ⟨rfl, .inl rfl⟩)),
    .inr (.inr (.inl ⟨rfl, .inr (by decide)⟩)), .inr (.inr (.inl ⟨rfl, .inr (by decide)⟩)),
    .inr (.inr (.inr ⟨rfl, .inl rfl⟩)), .inr (.inr (.inr ⟨rfl, .inl rfl⟩)),
    .inr (.inr (.inr ⟨rfl, .inr ⟨rfl, rfl⟩⟩)), .inr (.inr (.inr ⟨rfl, .inr ⟨rfl, rfl⟩⟩))⟩

/-- Words beside those ends, which are not illegal. -/
theorem test_witness_EveryOtherWordAnswersOk :
    (¬ IllegalWord Config.build 0x1100000000 ∧ ¬ IllegalWord Config.build 0x1400000000 ∧
      ¬ IllegalWord Config.build 0x2000000000 ∧ ¬ IllegalWord Config.build 0x6FFFFFFFFF ∧
      ¬ IllegalWord Config.build 0x4000000003) ∧
    Inv Config.build mid ∧ mid.phase = .live ∧ mid.rq.length < Config.build.respDepth := by
  refine ⟨⟨?_, ?_, ?_, ?_, ?_⟩, test_inv_mid, rfl, Nat.succ_pos _⟩ <;>
    simp [IllegalWord, opField, nField, tselField, dataField]

theorem test_witness_AnswerDependsOnRegistersAndCommandAlone :
    let u : State := { mid with rq := [someResponse], taken := [someResponse] }
    u.cfg = mid.cfg ∧ u.acc = mid.acc ∧ u.dcnt = mid.dcnt ∧
      exec (.dec 0x41) mid = .next { vec 1 1 235401 3 with rq := [0x000000000000] } := ⟨rfl, rfl, rfl, rfl⟩

theorem test_witness_ResponseCountsStayInTheirRange : Inv Config.build mid := test_inv_mid

theorem test_witness_ResponseWordsAreWellFormed :
    runWord exec 0x4000000006 mid = .next { mid with rq := [0x100000000000] } ∧
    runWord exec 0x7000000000 mid = .next { mid with rq := [0x100000000000] } ∧
    runWord exec 0x5000000000 mid = .next { vec 1 1 0 0 with rq := [0x000000000000] } := ⟨rfl, rfl, rfl⟩

theorem test_witness_UnreachableStatesStopByName :
    exec (.enc1 0x21) noImage = .fault .noRomImage ∧ exec .dfl (vec 0 0 0 5) = .fault .digitCountOutOfRange ∧
    tselExists Config.build noImage.tsel = false ∧ groupValue4 0 0 0 1 ≠ 0 ∧ groupValue4 0 0 0 1 ≠ 0x20202020 ∧
    noImage.gs = 0 ∧ groupValue4 0x20 0x20 0x20 0x20 = 0x20202020 ∧
    exec (.enc4 0x20 0x20 0x20 0x20) noImage = .fault .noRomImage ∧
    (0x41 : Byte) ≠ 0x7A ∧ (0x41 : Byte) ≠ 0x79 ∧
    (5 ≤ (vec 0 0 0 5).dcnt.toNat ∧ 5 ≤ (vec 0 0 0 7).dcnt.toNat) ∧
    romOf Config.build (vec 0 0 0 7).tsel = some standardRom ∧ classify standardRom 0x41 = .digit 32 :=
  ⟨rfl, rfl, rfl, by decide, by decide, rfl, by decide, rfl, by decide, by decide, by decide, rfl, by decide⟩

theorem test_witness_EncodeOfDecodeZeroesTheIgnoredBits : decode 0x2F12345641 = .ok (.dec 0x41) := by decide

theorem test_witness_IgnoredBitsNeverChangeTheCommand :
    decode 0x1121000000 = .ok (.enc1 0x21) ∧
      (0x1121FFFFFF : CommandWord) &&& (Instr.enc1 0x21).mnemonic.readBits =
        0x1121000000 &&& (Instr.enc1 0x21).mnemonic.readBits := by decide

theorem test_witness_DecodingRomInvertsTheEncodingRom :
    romOf Config.build 0 = some standardRom ∧ romOf Config.build 1 = some zeromqRom ∧
      (p7.build?.bind fun b => romOf b 2).isSome = true := ⟨rfl, rfl, by decide⟩

theorem test_witness_MalformedCustomTableGivesNoBuild :
    let dup : Params := { p7 with customTable := List.replicate 85 0x21 }
    dup.hasCustom = true ∧ ¬ dup.customTable.Nodup ∧ (∃ b, p7.build? = some b) ∧ p7.hasCustom = true ∧
      (∃ b, ({ p7 with hasCustom := false } : Params).build? = some b) :=
  ⟨rfl, by decide, Option.isSome_iff_exists.mp (by decide), rfl, Option.isSome_iff_exists.mp (by decide)⟩

/-- The two values that take a shortcut, their neighbours, and the largest. -/
theorem test_witness_Enc4AnswersAShortcutOrFiveSymbols :
    (0x1420202021 : CommandWord) &&& 0xFF00000000 = 0x1400000000 ∧
    romOf Config.build mid.tsel = some zeromqRom ∧ romOf Config.build State.reset.tsel = some standardRom ∧
    mid.gs = 1 ∧ State.reset.gs = 0 := ⟨by decide, rfl, rfl, rfl, rfl⟩

theorem test_witness_Enc3AnswersFourSymbols :
    (0x13202020FF : CommandWord) &&& 0xFF00000000 = 0x1300000000 ∧ romOf Config.build mid.tsel = some zeromqRom :=
  ⟨by decide, rfl⟩

theorem test_witness_Enc2AnswersThreeSymbols :
    (0x122020FFFF : CommandWord) &&& 0xFF00000000 = 0x1200000000 ∧ romOf Config.build mid.tsel = some zeromqRom :=
  ⟨by decide, rfl⟩

theorem test_witness_Enc1AnswersTwoSymbols :
    (0x1121FFFFFF : CommandWord) &&& 0xFF00000000 = 0x1100000000 ∧ romOf Config.build mid.tsel = some zeromqRom :=
  ⟨by decide, rfl⟩

theorem test_witness_GroupValueIsTheMaskedData :
    decode 0x1121FFFFFF = .ok (.enc1 0x21) ∧ decode 0x122122FFFF = .ok (.enc2 0x21 0x22) ∧
    decode 0x13212223FF = .ok (.enc3 0x21 0x22 0x23) ∧ decode 0x1421222324 = .ok (.enc4 0x21 0x22 0x23 0x24) := by
  decide

theorem test_witness_EncoderHoldsNoState :
    encodes (.enc4 0 0 0 1) = true ∧ tselExists Config.build (mid.cfg.extractLsb' 1 2) = true ∧ mid.cfg = 3 :=
  ⟨rfl, rfl, rfl⟩

theorem test_witness_EncoderMayInterleaveWithTheDecoder :
    encodes (.enc4 0 0 0 0) = true ∧ exec (.enc4 0 0 0 0) mid = .next { mid with rq := [0x017A00000000] } ∧
      exec (.dec 0x41) mid = .next { vec 1 1 235401 3 with rq := [0x000000000000] } ∧
      exec .dfl (vec 0 0 15 1) = .next { State.reset with rq := [0x000000000000] } := ⟨rfl, rfl, rfl, rfl⟩

/-- The first digit of a group and the last that does not complete it, at both ends of ACC's range. -/
theorem test_witness_DecTakesADigit :
    (0x75 : Byte) ≠ 0x7A ∧ (0x75 : Byte) ≠ 0x79 ∧ decRom standardRom 0x75 = some 84 ∧
    (∀ s ∈ [vec 0 0 0 0, vec 0 0 614124 3], romOf Config.build s.tsel = some standardRom) ∧
    (∀ s ∈ [vec 0 0 0 0, vec 0 0 614124 3], s.dcnt.toNat < 4 ∧ s.acc.toNat < 85 ^ s.dcnt.toNat) := by
  refine ⟨by decide, by decide, by decide, ?_, by decide⟩
  simp only [List.forall_mem_cons]
  exact ⟨rfl, rfl, fun _ h => nomatch h⟩

/-- The least and the largest ACC. -/
theorem test_witness_DecCompletesAGroup :
    (0x75 : Byte) ≠ 0x7A ∧ (0x75 : Byte) ≠ 0x79 ∧ decRom standardRom 0x75 = some 84 ∧
    romOf Config.build (vec 0 0 0 4).tsel = some standardRom ∧
    (∀ s ∈ [vec 0 0 0 4, vec 0 0 52200624 4], s.dcnt = 4 ∧ s.acc.toNat < 85 ^ 4) :=
  ⟨by decide, by decide, by decide, rfl, by decide⟩

theorem test_witness_DecIgnoresAnAbsentByte :
    romOf Config.build State.reset.tsel = some standardRom ∧
    (∀ sym : Byte, sym = 0x00 ∨ sym = 0x20 ∨ sym = 0x76 ∨ sym = 0x7B ∨ sym = 0xFF →
      sym ≠ 0x7A ∧ sym ≠ 0x79 ∧ decRom standardRom sym = none) := ⟨rfl, by decide⟩

/-- One byte of each class; in ZEROMQ the shortcuts are also digits of the table. -/
theorem test_witness_DecFollowsThePriorityOrder :
    (0x2FFFFFFF41 : CommandWord) &&& 0xF000000000 = 0x2000000000 ∧
    romOf Config.build mid.tsel = some zeromqRom ∧ classify zeromqRom 0x7A = .zeroShortcut ∧
    classify zeromqRom 0x79 = .spaceShortcut ∧ classify zeromqRom 0x23 = .digit 84 ∧
    classify zeromqRom 0x7E = .ignorable :=
  ⟨by decide, rfl, by decide, by decide, by decide, by decide⟩

theorem test_witness_ShortcutInsideAGroupKeepsThePendingDigits :
    exec (.dec 0x41) mid = .next { vec 1 1 235401 3 with rq := [0x000000000000] } := rfl

/-- One and four digits, at the ends of ACC's range and beside 82, and none. -/
theorem test_witness_DflFlushesThePartialGroup :
    (0x3FFFFFFFFF : CommandWord) &&& 0xF000000000 = 0x3000000000 ∧ State.reset.dcnt = 0 ∧
    (∀ s ∈ [vec 0 0 0 1, vec 0 0 81 1, vec 0 0 82 1, vec 0 0 84 1, vec 0 0 0 4, vec 0 0 52200624 4],
      1 ≤ s.dcnt.toNat ∧ s.dcnt.toNat ≤ 4 ∧ s.acc.toNat < 85 ^ s.dcnt.toNat) := ⟨by decide, rfl, by decide⟩

theorem test_witness_CfgInMidGroupChangesLaterDigitsOnly :
    (romOf Config.build 1 = some zeromqRom ∧ (0x30 : Byte) ≠ 0x7A ∧ (0x30 : Byte) ≠ 0x79 ∧
      decRom zeromqRom 0x30 = some 0 ∧ (vec 0 0 15 1).dcnt.toNat < 4 ∧
      (vec 0 0 15 1).acc.toNat < 85 ^ (vec 0 0 15 1).dcnt.toNat) ∧
    exec .dfl (vec 0 0 15 1) = .next { State.reset with rq := [0x000000000000] } :=
  ⟨⟨rfl, by decide, by decide, by decide, by decide, by decide⟩, rfl⟩

/-- A partial group, and a group that took the zero shortcut. -/
theorem test_witness_GroupDecodesBackToItsBytes :
    (encInstr [0x21] = some (.enc1 0x21) ∧
      exec (.enc1 0x21) State.reset = .next { State.reset with rq := [0x022B54000000] } ∧
      0x79 ∉ dataBytes 0x022B54000000 ∧ 0x7A ∉ dataBytes 0x022B54000000) ∧
    (encInstr [0, 0, 0, 0] = some (.enc4 0 0 0 0) ∧
      exec (.enc4 0 0 0 0) State.reset = .next { State.reset with rq := [0x017A00000000] } ∧
      dataBytes 0x017A00000000 = [0x7A]) ∧
    Inv Config.build State.reset ∧ State.reset.dcnt = 0 :=
  ⟨⟨rfl, rfl, by decide, by decide⟩, ⟨rfl, rfl, by decide⟩, test_inv_reset, rfl⟩

theorem test_witness_CfgWritesBothFieldsOrRefuses :
    (0x4FFFFFFFFF : CommandWord) &&& 0xF000000000 = 0x4000000000 := by decide

theorem test_witness_ClrAbandonsThePartialGroup :
    (0x5FFFFFFFFF : CommandWord) &&& 0xF000000000 = 0x5000000000 := by decide

theorem test_witness_StatReportsConfigurationAndDigitCount :
    (0x6F12345678 : CommandWord) &&& 0xF000000000 = 0x6000000000 := by decide

theorem test_witness_GroupSpaceFlagAffectsOnlyEnc4 :
    (Instr.enc3 0x20 0x20 0x20).mnemonic ≠ .ENC4 ∧ (Instr.enc3 0x20 0x20 0x20).mnemonic ≠ .CFG ∧
    (Instr.enc3 0x20 0x20 0x20).mnemonic ≠ .STAT ∧
    exec (.enc3 0x20 0x20 0x20) (vec 0 1 0 0) = .next { vec 0 1 0 0 with rq := [0x042B3C566400] } :=
  ⟨by decide, by decide, by decide, rfl⟩

/-- An encode call may begin inside a decode group. -/
theorem test_witness_MessageIsEncodedGroupByGroup :
    Idle Config.build mid ∧ encInstr [0, 0, 0, 0] = some (.enc4 0 0 0 0) ∧
      exec (.enc4 0 0 0 0) mid = .next { mid with rq := [0x017A00000000] } := ⟨test_idle_mid, rfl, rfl⟩

theorem test_witness_EmptyMessagesGiveEmptyOutput : Idle Config.build State.reset ∧ State.reset.dcnt = 0 :=
  ⟨test_idle_reset, rfl⟩

theorem test_witness_EncodedLengthFormula : Idle Config.build mid := test_idle_mid

theorem test_witness_OutputAlphabet :
    Idle Config.build State.reset ∧ State.reset.tsel = 0 ∧ Idle Config.build mid ∧ mid.tsel = 1 ∧
      romOf Config.build mid.tsel = some zeromqRom := ⟨test_idle_reset, rfl, test_idle_mid, rfl, rfl⟩

/-- `<~>` begins with the start marker and is too short; a text without it. -/
theorem test_witness_DelimiterCheckOfDecode :
    ([0x3C, 0x7E, 0x3E] : List Byte).take 2 = [0x3C, 0x7E] ∧
    ¬ (4 ≤ ([0x3C, 0x7E, 0x3E] : List Byte).length ∧
      ([0x3C, 0x7E, 0x3E] : List Byte).drop (([0x3C, 0x7E, 0x3E] : List Byte).length - 2) = [0x7E, 0x3E]) ∧
    ([0x20, 0x3C, 0x7E] : List Byte).take 2 ≠ [0x3C, 0x7E] := by decide

theorem test_witness_AbandonedDecodeLeavesACleanDecoder : Idle Config.build mid := test_idle_mid

theorem test_witness_MessageRoundTrip :
    Idle Config.build State.reset ∧ State.reset.dcnt = 0 ∧ romOf Config.build State.reset.tsel = some standardRom ∧
      0x79 ∉ standardRom.toList ∧ 0x7A ∉ standardRom.toList ∧ 0x7E ∉ standardRom.toList :=
  ⟨test_idle_reset, rfl, rfl, by decide, by decide, by decide⟩

/-- For each group length (4 bytes: those of P5), a group with digit 34 and one with digit 35 among its emitted symbols. -/
theorem test_witness_ZeromqShortcutDigitsDoNotRoundTrip :
    Idle Config.build (vec 1 1 0 0) ∧ (vec 1 1 0 0).dcnt = 0 ∧ (vec 1 1 0 0).tsel = 1 ∧
    (34 ∈ digits5 (groupValue4 0 0 0 0x22) ∧ 35 ∈ digits5 (groupValue4 0 0 0 0x23)) ∧
    (34 ∈ (digits5 (groupValue3 0 0 0x44)).take 4 ∧ 35 ∈ (digits5 (groupValue3 0 0 0x28)).take 4) ∧
    (34 ∈ (digits5 (groupValue2 0 0x3C)).take 3 ∧ 35 ∈ (digits5 (groupValue2 0 0x20)).take 3) ∧
    (34 ∈ (digits5 (groupValue1 0x6A)).take 2 ∧ 35 ∈ (digits5 (groupValue1 0x6D)).take 2) :=
  ⟨⟨⟨rfl, by decide, by decide, Nat.zero_le _, fun _ h => nomatch h⟩, rfl, rfl⟩, rfl, rfl, by decide, by decide,
    by decide, by decide⟩

theorem test_witness_DecodedLengthFormula :
    Idle Config.build State.reset ∧ State.reset.dcnt = 0 ∧ romOf Config.build State.reset.tsel = some standardRom :=
  ⟨test_idle_reset, rfl, rfl⟩

theorem test_witness_IgnorableBytesDoNotChangeTheOutput :
    Idle Config.build mid ∧ romOf Config.build mid.tsel = some zeromqRom := ⟨test_idle_mid, rfl⟩

theorem test_witness_OverrideAppliesToOneCallOnly :
    Idle Config.build mid ∧ tselExists Config.build 0 = true ∧ stripMarkers [0x41] = some [0x41] ∧
    stripMarkers [0x3C, 0x7E, 0x3E] = none ∧ stripMarkers [0x3C, 0x7E, 0x7E, 0x41] = none :=
  ⟨test_idle_mid, rfl, by decide, by decide, by decide⟩

/-- A value for each hypothesis. -/
theorem test_witness_AssemblerLinesDecodeToTheirCommands :
    (∀ c ∈ ['e', '~'], c.toNat < 128) ∧ (∀ n ∈ [0, 255], n < 256) ∧
    (∀ n, AsmLine.decm ['A'] ≠ .word n) ∧ assemble (.decm ['A']) = some [0x2000000041, 0x3000000000] ∧
    (ByteArg.bytes [0x21]).values? = some [0x21] ∧ ([0x21] : List Byte).length = 1 ∧
    (ByteArg.quoted ['e', 'a', 's', 'y']).values? = some [0x65, 0x61, 0x73, 0x79] ∧
    (ByteArg.bytes [1, 2, 3, 4, 5]).values? = some [1, 2, 3, 4, 5] ∧ 4 * 1 < ([1, 2, 3, 4, 5] : List Byte).length :=
  ⟨by simp, by simp, fun _ h => (nomatch h), by decide, by decide, by decide, by decide, by decide, by decide⟩

/-- 30_encoding.md R99: CFG's forms, by name and by number. -/
theorem test_assemble_cfg :
    assemble (.cfg .CUSTOM 1) = some [0x4000000005] ∧ assemble (.cfg (.number 3) 0) = some [0x4000000006] := by decide

end Sys2Proof.Tests
end

section
/-! SUPPORT. Family 00_scope.md, the registers a command reads: what a command answers in a state is what it answers in
the bare state of the same registers, put back into the state's frame (00_scope.md R11, 47_host_sequences.md R210). -/

namespace Sys2Proof.Machine

/-- The registers CFG, ACC and DCNT of `s` alone: RQ empty, nothing to come at the ports, nothing taken. -/
def State.bare (s : State) : State :=
  { cfg := s.cfg, acc := s.acc, dcnt := s.dcnt, rq := [], phase := .live, pins := [], taken := [] }

/-- The frame of `s` around the registers of `t`, with the responses of `t` behind those of `s`. -/
def State.graft (s t : State) : State :=
  { s with cfg := t.cfg, acc := t.acc, dcnt := t.dcnt, rq := s.rq ++ t.rq }

/-- A change of the next state; a fault or a refusal stays as it is. -/
def mapNext (f : State → State) : Host.Outcome State Fault Refusal → Host.Outcome State Fault Refusal
  | .next t => .next (f t)
  | .fault r => .fault r
  | .refused r => .refused r

@[simp] theorem State.bare_tsel (s : State) : s.bare.tsel = s.tsel := rfl
@[simp] theorem State.bare_gs (s : State) : s.bare.gs = s.gs := rfl
@[simp] theorem State.bare_acc (s : State) : s.bare.acc = s.acc := rfl
@[simp] theorem State.bare_dcnt (s : State) : s.bare.dcnt = s.dcnt := rfl

theorem State.bare_congr {s u : State} (hcfg : u.cfg = s.cfg) (hacc : u.acc = s.acc) (hdcnt : u.dcnt = s.dcnt) :
    u.bare = s.bare := by
  simp only [State.bare, hcfg, hacc, hdcnt]

/-- A state with one response and its registers, grafted: the frame's state after that one answer. -/
theorem State.graft_eq_answered {s t : State} {r : ResponseWord} (h : t.rq = [r]) :
    s.graft t = s.answered t.cfg t.acc t.dcnt r := by
  simp only [State.graft, State.answered, h]

theorem mapNext_eq_next {f : State → State} {o : Host.Outcome State Fault Refusal} {t : State}
    (h : mapNext f o = .next t) : ∃ t', o = .next t' ∧ t = f t' := by
  cases o with
  | next t' => cases h; exact ⟨t', rfl, rfl⟩
  | fault r => cases h
  | refused r => cases h

/-- The encoder's expansion reads TSEL alone. -/
theorem respondSymbols_eq_graft (b : Build) (w : BitVec 32) (k : Nat) (s : State) :
    respondSymbols b w k s = mapNext s.graft (respondSymbols b w k s.bare) := by
  simp only [respondSymbols, State.bare_tsel]
  cases romOf b s.tsel with
  | some rom => rfl
  | none => rfl

/-- Taking a digit reads ACC and DCNT alone. -/
theorem State.takeDigit_eq_graft (s : State) (d : Fin 85) : s.takeDigit d = mapNext s.graft (s.bare.takeDigit d) := by
  unfold State.takeDigit
  rw [State.bare_acc, State.bare_dcnt]
  split_ifs <;> rfl

/-- A command reads CFG, ACC and DCNT alone: its outcome is that in the bare state, a fault included, put back into the
frame. -/
theorem exec_eq_graft (i : Instr) (s : State) : exec i s = mapNext s.graft (exec i s.bare) := by
  cases i with
  | enc1 b0 => exact respondSymbols_eq_graft _ _ _ s
  | enc2 b0 b1 => exact respondSymbols_eq_graft _ _ _ s
  | enc3 b0 b1 b2 => exact respondSymbols_eq_graft _ _ _ s
  | enc4 b0 b1 b2 b3 =>
    simp only [exec, execEnc4, enc4On]
    rw [State.bare_gs]
    split_ifs
    · rfl
    · rfl
    · exact respondSymbols_eq_graft _ _ _ s
  | dec sym =>
    simp only [exec, execDec, decOn, State.bare_tsel]
    split_ifs
    · rfl
    · rfl
    · cases romOf Config.build s.tsel with
      | none => rfl
      | some rom =>
        cases h : decRom rom sym with
        | some d => simpa only [h] using s.takeDigit_eq_graft d
        | none => simp only [h]; rfl
  | dfl =>
    simp only [exec, execDfl]
    rw [State.bare_dcnt, State.bare_acc]
    split_ifs <;> rfl
  | cfg ts gs =>
    simp only [exec, execCfg, cfgOn]
    split_ifs <;> rfl
  | clr => rfl
  | stat => rfl

/-- A command that answers in `s` answers with the same response and registers in any state of the same CFG, ACC and
DCNT. -/
theorem exec_next_congr {i : Instr} {s u t : State} (hbare : u.bare = s.bare) (h : exec i s = .next t) :
    ∃ r, t = s.answered t.cfg t.acc t.dcnt r ∧ exec i u = .next (u.answered t.cfg t.acc t.dcnt r) := by
  obtain ⟨t', ht', rfl⟩ := mapNext_eq_next ((exec_eq_graft i s).symm.trans h)
  obtain ⟨r, -, hans⟩ := exec_next ht'
  have hrq : t'.rq = [r] := congrArg State.rq hans
  refine ⟨r, State.graft_eq_answered hrq, ?_⟩
  rw [exec_eq_graft, hbare, ht']
  exact congrArg Host.Outcome.next (State.graft_eq_answered hrq)

/-- Settles O14: a command's outcome is that in the bare state of its registers, put back into the frame. -/
theorem answerDependsOnRegistersAndCommandAlone : Obligations.AnswerDependsOnRegistersAndCommandAlone := by
  intro i s u t hcfg hacc hdcnt h
  exact exec_next_congr (State.bare_congr hcfg hacc hdcnt) h

end Sys2Proof.Machine
end

section
/-! SUPPORT. Family 00_scope.md, the build parameters: which make a build, and what the build holds (R6, R7). -/

namespace Sys2Proof

/-- What the CUSTOM image of accepted parameters is: none without `HAS_CUSTOM`, else the table, entry by entry. -/
theorem Params.custom?_eq_some {p : Params} {c : Option CustomTable} (h : p.custom? = some c) :
    (p.hasCustom = false ∧ c = none) ∨ (p.hasCustom = true ∧ ∃ ct, c = some ct ∧ ct.rom.toList = p.customTable) := by
  unfold Params.custom? at h
  split at h
  case h_1 hcust => cases h; exact .inl ⟨hcust, rfl⟩
  case h_2 hcust =>
    split at h
    · split at h
      · cases h; exact .inr ⟨hcust, _, rfl, rfl⟩
      · cases h
    · cases h

/-- The CUSTOM parameters are accepted exactly without `HAS_CUSTOM` or with 85 pairwise distinct bytes. -/
theorem Params.custom?_isSome (p : Params) :
    p.custom?.isSome = (!p.hasCustom || (decide (p.customTable.length = 85) && decide p.customTable.Nodup)) := by
  unfold Params.custom?
  split
  case h_1 hcust => simp [hcust]
  case h_2 hcust =>
    split
    case isTrue hlen =>
      split
      case isTrue hok =>
        have hnodup : p.customTable.Nodup := of_decide_eq_true hok
        simp [hcust, hlen, hnodup]
      case isFalse hok =>
        have hdup : ¬ p.customTable.Nodup := fun hnodup => hok (decide_eq_true hnodup)
        simp [hcust, hdup]
    case isFalse hlen => simp [hcust, hlen]

theorem Params.build?_isSome (p : Params) : p.build?.isSome = p.wf := by
  unfold Params.build? Params.wf
  rw [← p.custom?_isSome]
  split
  case isTrue hpos => simp [hpos]
  case isFalse hpos =>
    have hrange : (decide (1 ≤ p.lat) && decide (1 ≤ p.respDepth)) = false := by simpa using hpos
    simp [hrange]

theorem Params.build?_eq_none_iff (p : Params) : p.build? = none ↔ p.wf = false := by
  rw [← p.build?_isSome, Option.isSome_eq_false_iff, Option.isNone_iff_eq_none]

theorem Params.wf_eq_false_of_not_nodup {p : Params} (hcust : p.hasCustom = true) (hdup : ¬ p.customTable.Nodup) :
    p.wf = false := by
  simp [Params.wf, hcust, hdup]

/-- A build has the given `LAT` and `RESP_DEPTH`, and the CUSTOM image of its parameters. -/
theorem Params.build?_eq_some {p : Params} {b : Build} (h : p.build? = some b) :
    p.custom? = some b.custom ∧ b.lat = p.lat ∧ b.respDepth = p.respDepth := by
  unfold Params.build? at h
  split at h
  case isTrue hpos =>
    obtain ⟨hlat, hdepth⟩ := hpos
    obtain ⟨c, hc, rfl⟩ := Option.map_eq_some_iff.mp h
    exact ⟨hc, Nat.sub_add_cancel hlat, Nat.sub_add_cancel hdepth⟩
  case isFalse => cases h

end Sys2Proof

namespace Sys2Proof.Machine

/-- TSEL = 2 selects the build's CUSTOM image (30_encoding.md R92). -/
theorem romOf_two (b : Build) : romOf b 2 = b.custom.map CustomTable.rom := rfl

/-- Settles O27: a build exists exactly where the parameters pass the check, and its CUSTOM image is the table given. -/
theorem malformedCustomTableGivesNoBuild : Obligations.MalformedCustomTableGivesNoBuild := by
  intro p
  refine ⟨p.build?_eq_none_iff, fun hcust hdup => ?_, fun b hb => ?_⟩
  · exact p.build?_eq_none_iff.mpr (Params.wf_eq_false_of_not_nodup hcust hdup)
  · obtain ⟨hc, hlat, hdepth⟩ := Params.build?_eq_some hb
    rw [romOf_two, Build.hasCustom]
    obtain ⟨hcust, hnone⟩ | ⟨hcust, ct, hct, htable⟩ := Params.custom?_eq_some hc
    · simp [hcust, hnone, hlat, hdepth]
    · simp [hcust, hct, htable, hlat, hdepth]

end Sys2Proof.Machine
end

section
/-! SUPPORT. Family 10_state.md, the ROM images: the decoding ROM of every image a build can hold is the inverse of its
encoding ROM (10_state.md R41, R42). -/

namespace Sys2Proof.Machine

/-- The entries of every image a build can hold are pairwise distinct (00_scope.md R7, 30_encoding.md R90, R91). -/
theorem romOf_distinct {b : Build} {ts : BitVec 2} {rom : Rom} (h : romOf b ts = some rom) : rom.distinct = true := by
  unfold romOf at h
  split at h
  · cases h; decide
  · cases h; decide
  · obtain ⟨ct, -, rfl⟩ := Option.map_eq_some_iff.mp h
    exact ct.ok
  · cases h

theorem encRom_inj {rom : Rom} (hrom : rom.distinct = true) {d e : Fin 85} (h : encRom rom d = encRom rom e) : d = e := by
  have hnodup : rom.toList.Nodup := of_decide_eq_true hrom
  exact Fin.ext (hnodup.getElem_inj_iff.mp h)

/-- With distinct entries, the decoding ROM gives the digit whose entry is the byte. -/
theorem decRom_encRom {rom : Rom} (hrom : rom.distinct = true) (d : Fin 85) : decRom rom (encRom rom d) = some d := by
  cases h : decRom rom (encRom rom d) with
  | none => exact absurd rfl (decRom_eq_none h d)
  | some e => rw [encRom_inj hrom (encRom_of_decRom h)]

theorem decRom_eq_some_iff {rom : Rom} (hrom : rom.distinct = true) {sym : Byte} {d : Fin 85} :
    decRom rom sym = some d ↔ encRom rom d = sym :=
  ⟨encRom_of_decRom, by rintro rfl; exact decRom_encRom hrom d⟩

theorem decRom_eq_none_iff {rom : Rom} {sym : Byte} : decRom rom sym = none ↔ ∀ d, encRom rom d ≠ sym :=
  ⟨decRom_eq_none, fun h => Option.eq_none_iff_forall_ne_some.mpr fun d hd => h d (encRom_of_decRom hd)⟩

/-- Settles O24: no image has a byte twice, so the search of the decoding ROM finds the only entry. -/
theorem decodingRomInvertsTheEncodingRom : Obligations.DecodingRomInvertsTheEncodingRom := by
  intro b ts rom h
  have hrom := romOf_distinct h
  exact ⟨fun _ _ => encRom_inj hrom, fun _ _ => decRom_eq_some_iff hrom, fun _ => decRom_eq_none_iff⟩

end Sys2Proof.Machine
end

section
/-! SUPPORT. Family 10_state.md, what a command does to the registers: one of six effects, the two faults included
(10_state.md R31, R32, R35, R38, R39). -/

namespace Sys2Proof.Machine

/-- What a command can do in a state, by what it does to CFG, ACC and DCNT. -/
inductive Effect (b : Build) (s : State) : Host.Outcome State Fault Refusal → Prop where
  /-- The command answers and writes no register. -/
  | answer (rc : ResultCode) (ovf : Bool) (seq : List Byte) : Effect b s (.next (s.respond rc ovf seq))
  /-- A digit joins an open group (41_decoder.md R153). -/
  | digit (d : Fin 85) (hopen : s.dcnt.toNat < 4) :
      Effect b s (.next ((s.setDigits (s.acc.toNat * 85 + d.val) (s.dcnt.toNat + 1)).respond .ok false []))
  /-- The command answers and leaves no group open (41_decoder.md R154, R160, 42_control.md R182). -/
  | close (ovf : Bool) (seq : List Byte) : Effect b s (.next (s.respond .ok ovf seq).clearDigits)
  /-- CFG selects an image that exists (42_control.md R180). -/
  | configure (ts : BitVec 2) (gs : BitVec 1) (himage : tselExists b ts = true) :
      Effect b s (.next ((s.setCfg ts gs).respond .ok false []))
  | noRomImage (hrom : romOf b s.tsel = none) : Effect b s (.fault .noRomImage)
  | digitCountOutOfRange (hcount : 4 < s.dcnt.toNat) : Effect b s (.fault .digitCountOutOfRange)

theorem respondSymbols_effect (b : Build) (w : BitVec 32) (k : Nat) (s : State) :
    Effect b s (respondSymbols b w k s) := by
  obtain ⟨rom, -, h⟩ | ⟨hrom, h⟩ := respondSymbols_cases b w k s
  · rw [h]; exact .answer _ _ _
  · rw [h]; exact .noRomImage hrom

theorem State.takeDigit_effect (b : Build) (s : State) (d : Fin 85) : Effect b s (s.takeDigit d) := by
  obtain ⟨hopen, h⟩ | ⟨-, h⟩ | ⟨hcount, h⟩ := s.takeDigit_cases d
  · rw [h]; exact .digit d hopen
  · rw [h]; exact .close _ _
  · rw [h]; exact .digitCountOutOfRange hcount

theorem enc4On_effect (b : Build) (b0 b1 b2 b3 : Byte) (s : State) : Effect b s (enc4On b b0 b1 b2 b3 s) := by
  unfold enc4On
  split_ifs
  · exact .answer _ _ _
  · exact .answer _ _ _
  · exact respondSymbols_effect _ _ _ s

theorem decOn_effect (b : Build) (sym : Byte) (s : State) : Effect b s (decOn b sym s) := by
  unfold decOn
  split_ifs
  · exact .answer _ _ _
  · exact .answer _ _ _
  · split
    next hrom => exact .noRomImage hrom
    next =>
      split
      · exact s.takeDigit_effect b _
      · exact .answer _ _ _

theorem execDfl_effect (b : Build) (s : State) : Effect b s (execDfl s) := by
  unfold execDfl
  split_ifs with _ hcount
  · exact .close _ _
  · exact .close _ _
  · exact .digitCountOutOfRange (by omega)

theorem cfgOn_effect (b : Build) (ts : BitVec 2) (gs : BitVec 1) (s : State) : Effect b s (.next (cfgOn b ts gs s)) := by
  unfold cfgOn
  split_ifs with himage
  · exact .configure ts gs himage
  · exact .answer _ _ _

/-- Everything a command can do to the registers, faults included. -/
theorem exec_effect (i : Instr) (s : State) : Effect Config.build s (exec i s) := by
  cases i with
  | enc1 b0 => exact respondSymbols_effect _ _ _ s
  | enc2 b0 b1 => exact respondSymbols_effect _ _ _ s
  | enc3 b0 b1 b2 => exact respondSymbols_effect _ _ _ s
  | enc4 b0 b1 b2 b3 => exact enc4On_effect _ _ _ _ _ s
  | dec sym => exact decOn_effect _ sym s
  | dfl => exact execDfl_effect _ s
  | cfg ts gs => exact cfgOn_effect _ ts gs s
  | clr => exact .close _ _
  | stat => exact .answer _ _ _

end Sys2Proof.Machine
end

section
/-! SUPPORT. Family 10_state.md, the two faults: where a command raises them (10_state.md R35, R39, assumption log 10 and
11). -/

namespace Sys2Proof.Machine

theorem romOf_eq_none_iff (b : Build) (ts : BitVec 2) : romOf b ts = none ↔ tselExists b ts = false := by
  rw [← romOf_isSome, Option.isSome_eq_false_iff, Option.isNone_iff_eq_none]

theorem romOf_eq_none_of_noRomImage {i : Instr} {s : State} (h : exec i s = .fault .noRomImage) :
    romOf Config.build s.tsel = none := by
  have heff := exec_effect i s
  rw [h] at heff
  cases heff with
  | noRomImage hrom => exact hrom

theorem dcnt_gt_of_digitCountOutOfRange {i : Instr} {s : State} (h : exec i s = .fault .digitCountOutOfRange) :
    4 < s.dcnt.toNat := by
  have heff := exec_effect i s
  rw [h] at heff
  cases heff with
  | digitCountOutOfRange hcount => exact hcount

section NoImage
variable {b : Build} {s : State} (hrom : romOf b s.tsel = none)
include hrom

theorem respondSymbols_of_romOf_eq_none (w : BitVec 32) (k : Nat) : respondSymbols b w k s = .fault .noRomImage := by
  simp only [respondSymbols, hrom]

theorem enc4On_of_romOf_eq_none {b0 b1 b2 b3 : Byte} (hz : groupValue4 b0 b1 b2 b3 ≠ 0)
    (hy : s.gs = 1 → groupValue4 b0 b1 b2 b3 ≠ 0x20202020) : enc4On b b0 b1 b2 b3 s = .fault .noRomImage := by
  have hzdet : ¬ zdet 4 (groupValue4 b0 b1 b2 b3) = true := by simpa [zdet] using hz
  have hsdet : ¬ sdet 4 s.gs (groupValue4 b0 b1 b2 b3) = true := by simpa [sdet] using hy
  rw [enc4On, if_neg hzdet, if_neg hsdet, respondSymbols_of_romOf_eq_none hrom]

theorem decOn_of_romOf_eq_none {sym : Byte} (hz : sym ≠ zSym) (hy : sym ≠ ySym) :
    decOn b sym s = .fault .noRomImage := by
  simp only [decOn, hz, hy, hrom, if_false]

end NoImage

/-- A byte is classified as a digit exactly where it is no shortcut and the decoding ROM has it (41_decoder.md R156). -/
theorem classify_eq_digit_iff {rom : Rom} {sym : Byte} {d : Fin 85} :
    classify rom sym = .digit d ↔ sym ≠ zSym ∧ sym ≠ ySym ∧ decRom rom sym = some d := by
  unfold classify
  split_ifs with hz hy
  · simp [hz]
  · simp [hy]
  · cases decRom rom sym <;> simp [hz, hy]

/-- DEC of a digit takes that digit (41_decoder.md R153, R154). -/
theorem decOn_of_classify_eq_digit {b : Build} {s : State} {rom : Rom} {sym : Byte} {d : Fin 85}
    (hrom : romOf b s.tsel = some rom) (hdigit : classify rom sym = .digit d) : decOn b sym s = s.takeDigit d := by
  obtain ⟨hz, hy, hdec⟩ := classify_eq_digit_iff.mp hdigit
  simp only [decOn, hz, hy, hrom, hdec, if_false]

theorem State.takeDigit_of_dcnt_gt {s : State} (hcount : 4 < s.dcnt.toNat) (d : Fin 85) :
    s.takeDigit d = .fault .digitCountOutOfRange := by
  rw [State.takeDigit, if_neg (by omega), if_neg (by omega)]

theorem execDfl_of_dcnt_gt {s : State} (hcount : 4 < s.dcnt.toNat) : execDfl s = .fault .digitCountOutOfRange := by
  rw [execDfl, if_neg (by omega), if_neg (by omega)]

/-- Settles O17: a fault is one of two effects of a command, and each operation that reads a ROM or the digit count raises
its fault there. -/
theorem unreachableStatesStopByName : Obligations.UnreachableStatesStopByName := by
  refine ⟨fun i s h => ?_, fun i s h => dcnt_gt_of_digitCountOutOfRange h, fun b0 b1 b2 b3 sym s h => ?_,
    fun s rom sym d hcount => ⟨execDfl_of_dcnt_gt hcount, fun hrom hdigit => ?_⟩⟩
  · exact (romOf_eq_none_iff _ _).mp (romOf_eq_none_of_noRomImage h)
  · have hrom := (romOf_eq_none_iff _ _).mpr h
    exact ⟨respondSymbols_of_romOf_eq_none hrom _ _, respondSymbols_of_romOf_eq_none hrom _ _,
      respondSymbols_of_romOf_eq_none hrom _ _, enc4On_of_romOf_eq_none hrom, decOn_of_romOf_eq_none hrom⟩
  · exact (decOn_of_classify_eq_digit hrom hdigit).trans (State.takeDigit_of_dcnt_gt hcount d)

end Sys2Proof.Machine
end

section
/-! SUPPORT. Family 10_state.md, GS: what reads it besides ENC4 and STAT, which is nothing (10_state.md R36). -/

namespace Sys2Proof.Machine

theorem respondSymbols_setCfg (b : Build) (w : BitVec 32) (k : Nat) (s : State) (g : BitVec 1) :
    respondSymbols b w k (s.setCfg s.tsel g) = mapNext (·.setCfg s.tsel g) (respondSymbols b w k s) := by
  simp only [respondSymbols, State.setCfg_tsel]
  cases romOf b s.tsel <;> rfl

theorem State.takeDigit_setCfg (s : State) (ts : BitVec 2) (g : BitVec 1) (d : Fin 85) :
    (s.setCfg ts g).takeDigit d = mapNext (·.setCfg ts g) (s.takeDigit d) := by
  unfold State.takeDigit
  rw [State.setCfg_acc, State.setCfg_dcnt]
  split_ifs <;> rfl

theorem decOn_setCfg (b : Build) (sym : Byte) (s : State) (g : BitVec 1) :
    decOn b sym (s.setCfg s.tsel g) = mapNext (·.setCfg s.tsel g) (decOn b sym s) := by
  simp only [decOn, State.setCfg_tsel]
  split_ifs
  · rfl
  · rfl
  · cases romOf b s.tsel with
    | none => rfl
    | some rom =>
      cases h : decRom rom sym with
      | some d => simpa only [h] using s.takeDigit_setCfg s.tsel g d
      | none => simp only [h]; rfl

theorem execDfl_setCfg (s : State) (ts : BitVec 2) (g : BitVec 1) :
    execDfl (s.setCfg ts g) = mapNext (·.setCfg ts g) (execDfl s) := by
  unfold execDfl
  rw [State.setCfg_dcnt, State.setCfg_acc]
  split_ifs <;> rfl

/-- A command other than ENC4, CFG and STAT does under another GS what it does under the present one. -/
theorem exec_setCfg_gs {i : Instr} (henc4 : i.mnemonic ≠ .ENC4) (hcfg : i.mnemonic ≠ .CFG) (hstat : i.mnemonic ≠ .STAT)
    (s : State) (g : BitVec 1) : exec i (s.setCfg s.tsel g) = mapNext (·.setCfg s.tsel g) (exec i s) := by
  cases i with
  | enc1 b0 => exact respondSymbols_setCfg _ _ _ s g
  | enc2 b0 b1 => exact respondSymbols_setCfg _ _ _ s g
  | enc3 b0 b1 b2 => exact respondSymbols_setCfg _ _ _ s g
  | enc4 b0 b1 b2 b3 => exact absurd rfl henc4
  | dec sym => exact decOn_setCfg _ sym s g
  | dfl => exact execDfl_setCfg s _ g
  | cfg ts gs => exact absurd rfl hcfg
  | clr => rfl
  | stat => exact absurd rfl hstat

/-- Settles O48: writing GS alone before such a command is the same as writing it after. -/
theorem groupSpaceFlagAffectsOnlyEnc4 : Obligations.GroupSpaceFlagAffectsOnlyEnc4 := by
  intro i s t g henc4 hcfg hstat h
  exact (exec_setCfg_gs henc4 hcfg hstat s g).trans (by rw [h]; rfl)

end Sys2Proof.Machine
end

section
/-! SUPPORT. Family 10_state.md, RQ: what an edge does to the responses (10_state.md R44, 70_reset_and_hazards.md R271). -/

namespace Sys2Proof.Machine

/-- Serving moves a response and loses none. -/
theorem State.serveResponse_taken_append_rq (s : State) (ready : Bool) :
    (s.serveResponse ready).taken ++ (s.serveResponse ready).rq = s.taken ++ s.rq := by
  rw [serveResponse_taken, serveResponse_rq]
  cases ready with
  | false => rfl
  | true => simp only [if_true, List.append_assoc, List.take_append_drop]

theorem State.serveResponse_rq_sublist (s : State) (ready : Bool) : (s.serveResponse ready).rq.Sublist s.rq := by
  rw [serveResponse_rq]
  cases ready with
  | false => exact .refl _
  | true => exact s.rq.drop_sublist 1

/-- An edge without reset accepts a command exactly where one is presented while RQ has room. -/
theorem accepted_isSome_iff {b : Build} {e : PortEdge} {s : State} (hrst : e.rst = false) :
    (accepted b e s).isSome ↔ e.cmd.isSome ∧ s.rq.length < b.respDepth := by
  rw [← cmdReady_iff, accepted, hrst]
  cases cmdReady b false s <;> simp

/-- A command adds one good response to RQ and gives the host none. -/
theorem exec_queue {i : Instr} {s t : State} (h : exec i s = .next t) :
    t.taken = s.taken ∧ ∃ r, GoodResponse r ∧ t.rq = s.rq ++ [r] := by
  obtain ⟨r, hr, ht⟩ := exec_next h
  have htaken := congrArg State.taken ht
  have hrq := congrArg State.rq ht
  exact ⟨htaken, r, hr.good, hrq⟩

/-- What a live edge does to the responses: the host takes the oldest if it is ready, and an accepted command adds one. -/
theorem liveEdge_queue {e : PortEdge} {s t : State} (h : liveEdge Config.build exec e s = .next t) :
    t.taken = (s.serveResponse e.rspReady).taken ∧
    ∃ new : List ResponseWord, t.rq = (s.serveResponse e.rspReady).rq ++ new ∧ (∀ r ∈ new, GoodResponse r) ∧
      new.length = if (accepted Config.build e s).isSome then 1 else 0 := by
  obtain ⟨ha, rfl⟩ | ⟨w, i, ha, -, hexec⟩ | ⟨w, err, ha, -, rfl⟩ := liveEdge_cases h
  · exact ⟨rfl, [], by simp [ha]⟩
  · obtain ⟨htaken, r, hr, hrq⟩ := exec_queue hexec
    exact ⟨htaken, [r], by simp [ha, hrq, hr]⟩
  · exact ⟨rfl, [respWord .illegal false []], rfl, by simp [goodResponse_illegal], by simp [ha]⟩

/-- A command is accepted only with room, so a live edge keeps RQ within `RESP_DEPTH`. -/
theorem liveEdge_depth {e : PortEdge} {s t : State} (hrst : e.rst = false) (hdepth : s.rq.length ≤ Config.build.respDepth)
    (h : liveEdge Config.build exec e s = .next t) : t.rq.length ≤ Config.build.respDepth := by
  obtain ⟨-, new, hrq, -, hnew⟩ := liveEdge_queue h
  have hserve := (s.serveResponse_rq_sublist e.rspReady).length_le
  rw [hrq, List.length_append, hnew]
  split_ifs with ha
  · have hroom := ((accepted_isSome_iff hrst).mp ha).2
    omega
  · omega

/-- A step at an edge without reset, after the first reset, is the live edge. -/
theorem step_eq_liveEdge {s : State} {e : PortEdge} {later : List PortEdge} (hlive : s.phase = .live)
    (hpins : s.pins = e :: later) (hrst : e.rst = false) :
    step s = liveEdge Config.build exec e { s with pins := later } := by
  simp only [step, clock, hpins, onEdge, hrst, hlive]

/-- Settles O5: a live edge serves the host, then appends what the accepted command answers. -/
theorem responsesLeaveInOrderAndNoneIsDropped : Obligations.ResponsesLeaveInOrderAndNoneIsDropped := by
  intro s t e later hlive hpins hrst hdepth h
  rw [step_eq_liveEdge hlive hpins hrst] at h
  obtain ⟨htaken, new, hrq, -, hnew⟩ := liveEdge_queue h
  refine ⟨?_, ⟨new, ?_, ?_⟩, liveEdge_depth (s := { s with pins := later }) hrst hdepth h⟩
  · rw [htaken, State.serveResponse_taken]
    cases e.rspReady <;> simp
  · rw [htaken, hrq, ← List.append_assoc, State.serveResponse_taken_append_rq]
  · rw [hnew]
    exact if_congr (accepted_isSome_iff hrst) rfl rfl

end Sys2Proof.Machine
end

section
/-! SUPPORT. Family 10_state.md, the invariant: it holds after reset, and every step keeps it. It is split into what it says
of the registers (10_state.md R35, R38, R39), kept by every effect, and what it says of RQ (R44). -/

namespace Sys2Proof.Machine

/-- What `Inv` says of CFG, ACC and DCNT. -/
structure GoodRegisters (b : Build) (s : State) : Prop where
  tsel : tselExists b s.tsel = true
  dcnt : s.dcnt.toNat ≤ 4
  acc  : s.acc.toNat < 85 ^ s.dcnt.toNat

theorem Inv.goodRegisters {b : Build} {s : State} (h : Inv b s) : GoodRegisters b s := ⟨h.tsel, h.dcnt, h.acc⟩

theorem GoodRegisters.inv {b : Build} {s : State} (h : GoodRegisters b s) (hdepth : s.rq.length ≤ b.respDepth)
    (hqueued : ∀ r ∈ s.rq, GoodResponse r) : Inv b s :=
  ⟨h.tsel, h.dcnt, h.acc, hdepth, hqueued⟩

theorem GoodRegisters.serveResponse {b : Build} {s : State} (h : GoodRegisters b s) (ready : Bool) :
    GoodRegisters b (s.serveResponse ready) := by
  obtain ⟨htsel, hdcnt, hacc⟩ := h
  constructor <;> simpa

/-- One digit more: `ACC * 85 + d < 85**(DCNT + 1)`, which with DCNT below 4 fits both registers (10_state.md R38, R39). -/
theorem GoodRegisters.takeDigit {b : Build} {s : State} (h : GoodRegisters b s) (hopen : s.dcnt.toNat < 4) (d : Fin 85) :
    GoodRegisters b (s.setDigits (s.acc.toNat * 85 + d.val) (s.dcnt.toNat + 1)) := by
  have hdcnt : (BitVec.ofNat 3 (s.dcnt.toNat + 1)).toNat = s.dcnt.toNat + 1 := by
    rw [BitVec.toNat_ofNat]; omega
  have hbound : s.acc.toNat * 85 + d.val < 85 ^ (s.dcnt.toNat + 1) := by
    have hacc := h.acc
    have hd := d.isLt
    rw [pow_succ]
    omega
  refine ⟨h.tsel, ?_, ?_⟩
  · rw [State.setDigits_dcnt, hdcnt]
    exact hopen
  · rw [State.setDigits_dcnt, hdcnt, State.setDigits_acc, BitVec.toNat_ofNat]
    exact (Nat.mod_le _ _).trans_lt hbound

theorem GoodRegisters.clearDigits {b : Build} {s : State} (h : GoodRegisters b s) : GoodRegisters b s.clearDigits :=
  ⟨h.tsel, by simp [State.clearDigits], by simp [State.clearDigits]⟩

theorem GoodRegisters.setCfg {b : Build} {s : State} (h : GoodRegisters b s) {ts : BitVec 2}
    (himage : tselExists b ts = true) (gs : BitVec 1) : GoodRegisters b (s.setCfg ts gs) :=
  ⟨by rwa [State.setCfg_tsel], h.dcnt, h.acc⟩

theorem GoodRegisters.respond {b : Build} {s : State} (h : GoodRegisters b s) (rc : ResultCode) (ovf : Bool)
    (seq : List Byte) : GoodRegisters b (s.respond rc ovf seq) :=
  ⟨h.tsel, h.dcnt, h.acc⟩

/-- Every effect of a command keeps the registers good. -/
theorem GoodRegisters.of_effect {b : Build} {s t : State} (h : GoodRegisters b s) (heff : Effect b s (.next t)) :
    GoodRegisters b t := by
  cases heff with
  | answer rc ovf seq => exact h.respond rc ovf seq
  | digit d hopen => exact (h.takeDigit hopen d).respond _ _ _
  | close ovf seq => exact (h.respond _ _ _).clearDigits
  | configure ts gs himage => exact (h.setCfg himage gs).respond _ _ _

theorem GoodRegisters.of_exec {i : Instr} {s t : State} (h : GoodRegisters Config.build s) (hexec : exec i s = .next t) :
    GoodRegisters Config.build t :=
  h.of_effect (hexec ▸ exec_effect i s)

theorem GoodRegisters.of_liveEdge {e : PortEdge} {s t : State} (h : GoodRegisters Config.build s)
    (hedge : liveEdge Config.build exec e s = .next t) : GoodRegisters Config.build t := by
  have hserved := h.serveResponse e.rspReady
  obtain ⟨-, rfl⟩ | ⟨w, i, -, -, hexec⟩ | ⟨w, err, -, -, rfl⟩ := liveEdge_cases hedge
  · exact hserved
  · exact hserved.of_exec hexec
  · exact hserved.respond _ _ _

theorem Inv.of_liveEdge {e : PortEdge} {s t : State} (h : Inv Config.build s) (hrst : e.rst = false)
    (hedge : liveEdge Config.build exec e s = .next t) : Inv Config.build t := by
  refine (h.goodRegisters.of_liveEdge hedge).inv (liveEdge_depth hrst h.depth hedge) fun r hr => ?_
  obtain ⟨-, new, hrq, hgood, -⟩ := liveEdge_queue hedge
  rw [hrq, List.mem_append] at hr
  obtain hold | hnew := hr
  · exact h.queued r ((s.serveResponse_rq_sublist e.rspReady).subset hold)
  · exact hgood r hnew

/-- No field of the invariant reads the edges to come. -/
theorem Inv.setPins {b : Build} {s : State} (h : Inv b s) (later : List PortEdge) : Inv b { s with pins := later } :=
  ⟨h.tsel, h.dcnt, h.acc, h.depth, h.queued⟩

theorem tselExists_zero (b : Build) : tselExists b 0 = true := rfl

@[simp] theorem State.applyReset_tsel (s : State) : s.applyReset.tsel = 0 := by simp [State.tsel]

/-- A reset establishes the invariant in any state (10_state.md R45). -/
theorem inv_applyReset (b : Build) (s : State) : Inv b s.applyReset where
  tsel := by rw [State.applyReset_tsel, tselExists_zero]
  dcnt := by simp
  acc := by simp
  depth := Nat.zero_le _
  queued := by simp

/-- Settles O10: a step changes nothing the invariant reads, resets, or is a live edge. -/
theorem everyStepKeepsTheInvariant : Obligations.EveryStepKeepsTheInvariant := by
  intro s t hinv h
  obtain ⟨-, rfl⟩ | ⟨e, later, -, ⟨-, rfl⟩ | ⟨-, -, -, rfl⟩ | ⟨hrst, -, hedge⟩⟩ := step_cases h
  · exact hinv
  · exact inv_applyReset _ _
  · exact hinv.setPins later
  · exact (hinv.setPins later).of_liveEdge hrst hedge

/-- Settles O9: the reset state is the result of a reset. -/
theorem invariantHoldsAtReset : Obligations.InvariantHoldsAtReset :=
  inv_applyReset Config.build State.reset

theorem romOf_zero (b : Build) : romOf b 0 = some standardRom := rfl

theorem romOf_one (b : Build) : romOf b 1 = some zeromqRom := rfl

/-- Settles O1: each register's reset value stands in `State.reset`, an empty RQ has room in every build, and the images
are those `romOf` selects. -/
theorem resetStateHoldsTheSpecifiedValues : Obligations.ResetStateHoldsTheSpecifiedValues := by
  have hready : cmdReady Config.build false State.reset = true := (cmdReady_iff _ _).mpr (Nat.succ_pos _)
  exact ⟨rfl, rfl, rfl, rfl, rfl, hready, romOf_zero _, romOf_one _, romOf_two _⟩

end Sys2Proof.Machine
end

section
/-! SUPPORT. Family 30_encoding.md, the decoder: which fields spell which command (30_encoding.md R81 to R83), and that a
word spells a command exactly where the bits the command reads are those of its encoding (R84, R99). -/

namespace Sys2Proof.Machine

/-! ### Parts of a bit vector -/

theorem append_inj {k m : Nat} {x x' : BitVec k} {y y' : BitVec m} : x ++ y = x' ++ y' ↔ x = x' ∧ y = y' := by
  refine ⟨fun h => ⟨?_, ?_⟩, by rintro ⟨rfl, rfl⟩; rfl⟩
  · simpa only [BitVec.extractLsb'_append_eq_left] using congrArg (·.extractLsb' m k) h
  · simpa only [BitVec.extractLsb'_append_eq_right] using congrArg (·.extractLsb' 0 m) h

/-- A field is a concatenation exactly where its two parts are. -/
theorem field_eq_append_iff {w k m : Nat} (d : BitVec w) (start : Nat) (x : BitVec k) (y : BitVec m) :
    d.extractLsb' start (k + m) = x ++ y ↔ d.extractLsb' (start + m) k = x ∧ d.extractLsb' start m = y := by
  rw [← BitVec.extractLsb'_append_extractLsb'_eq_extractLsb' rfl, append_inj]

/-- Masked to its top `k` bits, a value shows those bits alone. -/
theorem and_topMask_eq_iff {k m : Nat} (d : BitVec (k + m)) (x : BitVec k) :
    d &&& (BitVec.allOnes k ++ 0#m) = x ++ 0#m ↔ d.extractLsb' m k = x := by
  conv_lhs => rw [← BitVec.extractLsb'_append_extractLsb' (x := d)]
  rw [BitVec.and_append, BitVec.and_allOnes, BitVec.and_zero, append_inj, and_iff_left rfl]

/-- Masked to its low `m` bits, a value shows those bits alone. -/
theorem and_lowMask_eq_iff {k m : Nat} (d : BitVec (k + m)) (y : BitVec m) :
    d &&& (0#k ++ BitVec.allOnes m) = 0#k ++ y ↔ d.extractLsb' 0 m = y := by
  conv_lhs => rw [← BitVec.extractLsb'_append_extractLsb' (x := d)]
  rw [BitVec.and_append, BitVec.and_allOnes, BitVec.and_zero, append_inj, and_iff_right rfl]

/-! ### What a word spells -/

/-- The fields OP, N and DATA spell an instruction: OP and, where OP is ENC, N name the command, and DATA holds its
operands (30_encoding.md R81 to R83). -/
def Spells (op n : BitVec 4) (d : BitVec 32) : Instr → Prop
  | .enc1 b0 => op = 1 ∧ n = 1 ∧ d.extractLsb' 24 8 = b0
  | .enc2 b0 b1 => op = 1 ∧ n = 2 ∧ d.extractLsb' 24 8 = b0 ∧ d.extractLsb' 16 8 = b1
  | .enc3 b0 b1 b2 => op = 1 ∧ n = 3 ∧ d.extractLsb' 24 8 = b0 ∧ d.extractLsb' 16 8 = b1 ∧ d.extractLsb' 8 8 = b2
  | .enc4 b0 b1 b2 b3 =>
    op = 1 ∧ n = 4 ∧ d.extractLsb' 24 8 = b0 ∧ d.extractLsb' 16 8 = b1 ∧ d.extractLsb' 8 8 = b2 ∧ d.extractLsb' 0 8 = b3
  | .dec sym => op = 2 ∧ d.extractLsb' 0 8 = sym
  | .dfl => op = 3
  | .cfg ts gs => op = 4 ∧ d.extractLsb' 1 2 = ts ∧ d.extractLsb' 0 1 = gs
  | .clr => op = 5
  | .stat => op = 6

/-- The decoder answers exactly the instruction a word's fields spell. -/
theorem decode_commandWord_eq_ok_iff {op n : BitVec 4} {d : BitVec 32} {i : Instr} :
    decode (commandWord op n d) = .ok i ↔ Spells op n d i := by
  constructor
  · intro h
    rw [decode_commandWord] at h
    split at h
    case h_1 hop =>
      obtain rfl : op = 1 := BitVec.eq_of_toNat_eq hop
      split at h <;> cases h
      case h_1 hn => exact ⟨rfl, BitVec.eq_of_toNat_eq hn, rfl⟩
      case h_2 hn => exact ⟨rfl, BitVec.eq_of_toNat_eq hn, rfl, rfl⟩
      case h_3 hn => exact ⟨rfl, BitVec.eq_of_toNat_eq hn, rfl, rfl, rfl⟩
      case h_4 hn => exact ⟨rfl, BitVec.eq_of_toNat_eq hn, rfl, rfl, rfl, rfl⟩
    case h_2 hop => cases h; exact ⟨BitVec.eq_of_toNat_eq hop, rfl⟩
    case h_3 hop => cases h; exact BitVec.eq_of_toNat_eq hop
    case h_4 hop => cases h; exact ⟨BitVec.eq_of_toNat_eq hop, rfl, rfl⟩
    case h_5 hop => cases h; exact BitVec.eq_of_toNat_eq hop
    case h_6 hop => cases h; exact BitVec.eq_of_toNat_eq hop
    case h_7 => cases h
  · cases i with
    | enc1 b0 => rintro ⟨rfl, rfl, rfl⟩; exact decode_commandWord 1 1 d
    | enc2 b0 b1 => rintro ⟨rfl, rfl, rfl, rfl⟩; exact decode_commandWord 1 2 d
    | enc3 b0 b1 b2 => rintro ⟨rfl, rfl, rfl, rfl, rfl⟩; exact decode_commandWord 1 3 d
    | enc4 b0 b1 b2 b3 => rintro ⟨rfl, rfl, rfl, rfl, rfl, rfl⟩; exact decode_commandWord 1 4 d
    | dec sym => rintro ⟨rfl, rfl⟩; exact decode_commandWord 2 n d
    | dfl => rintro rfl; exact decode_commandWord 3 n d
    | cfg ts gs => rintro ⟨rfl, rfl, rfl⟩; exact decode_commandWord 4 n d
    | clr => rintro rfl; exact decode_commandWord 5 n d
    | stat => rintro rfl; exact decode_commandWord 6 n d

/-- Masked to OP, N and some bits of DATA, a word shows its OP, its N and those bits. -/
theorem and_opN_data_eq_iff {op n op' n' : BitVec 4} {d m d' : BitVec 32} :
    commandWord op n d &&& commandWord 0xF 0xF m = commandWord op' n' d' ↔ op = op' ∧ n = n' ∧ d &&& m = d' := by
  have hones (x : BitVec 4) : x &&& 0xF = x := BitVec.and_allOnes
  rw [commandWord_and, commandWord_inj, hones, hones]

/-- Masked to OP and some bits of DATA, a word shows its OP and those bits. -/
theorem and_op_data_eq_iff {op n op' : BitVec 4} {d m d' : BitVec 32} :
    commandWord op n d &&& commandWord 0xF 0 m = commandWord op' 0 d' ↔ op = op' ∧ d &&& m = d' := by
  have hones : op &&& 0xF = op := BitVec.and_allOnes
  have hzero : n &&& 0 = 0 := BitVec.and_zero
  rw [commandWord_and, commandWord_inj, hones, hzero, and_iff_right rfl]

/-- Masked to OP alone, a word shows its OP. -/
theorem and_op_eq_iff {op n op' : BitVec 4} {d : BitVec 32} :
    commandWord op n d &&& 0xF000000000 = commandWord op' 0 0 ↔ op = op' := by
  rw [and_mask_op, commandWord_inj, and_iff_left ⟨rfl, rfl⟩]

/-- Masked to OP and N, a word shows its OP and its N. -/
theorem and_opN_eq_iff {op n op' n' : BitVec 4} {d : BitVec 32} :
    commandWord op n d &&& 0xFF00000000 = commandWord op' n' 0 ↔ op = op' ∧ n = n' := by
  rw [and_mask_opN, commandWord_inj, and_iff_left (a := n = n') rfl]

/-! ### The bits a command reads, field by field (30_encoding.md R82, R83) -/

theorem readBits_enc1 : Mnemonic.ENC1.readBits = commandWord 0xF 0xF (BitVec.allOnes 8 ++ 0#24) := by decide
theorem readBits_enc2 : Mnemonic.ENC2.readBits = commandWord 0xF 0xF (BitVec.allOnes 16 ++ 0#16) := by decide
theorem readBits_enc3 : Mnemonic.ENC3.readBits = commandWord 0xF 0xF (BitVec.allOnes 24 ++ 0#8) := by decide
theorem readBits_enc4 : Mnemonic.ENC4.readBits = commandWord 0xF 0xF (BitVec.allOnes 32) := by decide
theorem readBits_dec : Mnemonic.DEC.readBits = commandWord 0xF 0 (0#24 ++ BitVec.allOnes 8) := by decide
theorem readBits_cfg : Mnemonic.CFG.readBits = commandWord 0xF 0 (0#29 ++ BitVec.allOnes 3) := by decide

/-- The fields of a word spell an instruction exactly where the bits its command reads are those of its encoding. -/
theorem and_readBits_eq_encode_iff {op n : BitVec 4} {d : BitVec 32} {i : Instr} :
    commandWord op n d &&& i.mnemonic.readBits = encode i ↔ Spells op n d i := by
  cases i with
  | enc1 b0 =>
    rw [Instr.mnemonic, readBits_enc1, encode, and_opN_data_eq_iff, and_topMask_eq_iff (k := 8) (m := 24)]
    rfl
  | enc2 b0 b1 =>
    rw [Instr.mnemonic, readBits_enc2, encode, and_opN_data_eq_iff, and_topMask_eq_iff (k := 16) (m := 16),
      field_eq_append_iff (k := 8) (m := 8)]
    rfl
  | enc3 b0 b1 b2 =>
    rw [Instr.mnemonic, readBits_enc3, encode, and_opN_data_eq_iff, and_topMask_eq_iff (k := 24) (m := 8),
      field_eq_append_iff (k := 16) (m := 8), field_eq_append_iff (k := 8) (m := 8), and_assoc]
    rfl
  | enc4 b0 b1 b2 b3 =>
    rw [Instr.mnemonic, readBits_enc4, encode, and_opN_data_eq_iff, BitVec.and_allOnes,
      ← BitVec.extractLsb'_eq_self (x := d), field_eq_append_iff (k := 24) (m := 8),
      field_eq_append_iff (k := 16) (m := 8), field_eq_append_iff (k := 8) (m := 8), and_assoc, and_assoc,
      BitVec.extractLsb'_eq_self]
    rfl
  | dec sym =>
    rw [Instr.mnemonic, readBits_dec, encode, and_op_data_eq_iff, and_lowMask_eq_iff (k := 24) (m := 8)]
    rfl
  | dfl => exact and_op_eq_iff
  | cfg ts gs =>
    rw [Instr.mnemonic, readBits_cfg, encode, and_op_data_eq_iff, BitVec.append_assoc, BitVec.cast_eq,
      and_lowMask_eq_iff (k := 29) (m := 3), field_eq_append_iff (k := 2) (m := 1)]
    rfl
  | clr => exact and_op_eq_iff
  | stat => exact and_op_eq_iff

end Sys2Proof.Machine
end

section
/-! SUPPORT. Family 30_encoding.md, encoder against decoder, and the opcode map (30_encoding.md R84, R98, R99). -/

namespace Sys2Proof.Machine

/-- A word decodes to an instruction exactly where the bits its command reads are those of its encoding. -/
theorem decode_eq_ok_iff {w : CommandWord} {i : Instr} :
    decode w = .ok i ↔ w &&& i.mnemonic.readBits = encode i := by
  obtain ⟨op, n, d, rfl⟩ := exists_commandWord w
  rw [decode_commandWord_eq_ok_iff, and_readBits_eq_encode_iff]

/-- An encoding holds no bit that its command ignores (30_encoding.md R99). -/
theorem encode_and_readBits (i : Instr) : encode i &&& i.mnemonic.readBits = encode i := by
  cases i with
  | enc1 b0 => exact (Laws.RowMatch.enc1 b0).2
  | enc2 b0 b1 => exact (Laws.RowMatch.enc2 b0 b1).2
  | enc3 b0 b1 b2 => exact (Laws.RowMatch.enc3 b0 b1 b2).2
  | enc4 b0 b1 b2 b3 => exact (Laws.RowMatch.enc4 b0 b1 b2 b3).2
  | dec sym => exact (Laws.RowMatch.dec sym).2
  | dfl => exact Laws.RowMatch.dfl.2
  | cfg ts gs => exact (Laws.RowMatch.cfg ts gs).2
  | clr => exact Laws.RowMatch.clr.2
  | stat => exact Laws.RowMatch.stat.2

@[simp] theorem decode_encode (i : Instr) : decode (encode i) = .ok i :=
  decode_eq_ok_iff.mpr (encode_and_readBits i)

/-- Settles O18: an encoding holds exactly the bits its command reads. -/
theorem decodeOfEncodeIsTheInstruction : Obligations.DecodeOfEncodeIsTheInstruction := decode_encode

/-- Settles O19: one direction of `decode_eq_ok_iff`. -/
theorem encodeOfDecodeZeroesTheIgnoredBits : Obligations.EncodeOfDecodeZeroesTheIgnoredBits := by
  intro w i h
  exact (decode_eq_ok_iff.mp h).symm

/-- Settles O20: the bits the command reads decide whether a word decodes to it. -/
theorem ignoredBitsNeverChangeTheCommand : Obligations.IgnoredBitsNeverChangeTheCommand := by
  intro w v i h hagree
  exact decode_eq_ok_iff.mpr (hagree.trans (decode_eq_ok_iff.mp h))

/-! ### The opcode map -/

section Rows
variable (w : CommandWord)

theorem and_mask_eq_enc1_iff : w &&& 0xFF00000000 = 0x1100000000 ↔ ∃ b0, decode w = .ok (.enc1 b0) := by
  obtain ⟨op, n, d, rfl⟩ := exists_commandWord w
  exact (and_opN_eq_iff (op' := 1) (n' := 1)).trans (by simp [decode_commandWord_eq_ok_iff, Spells])

theorem and_mask_eq_enc2_iff : w &&& 0xFF00000000 = 0x1200000000 ↔ ∃ b0 b1, decode w = .ok (.enc2 b0 b1) := by
  obtain ⟨op, n, d, rfl⟩ := exists_commandWord w
  exact (and_opN_eq_iff (op' := 1) (n' := 2)).trans (by simp [decode_commandWord_eq_ok_iff, Spells])

theorem and_mask_eq_enc3_iff :
    w &&& 0xFF00000000 = 0x1300000000 ↔ ∃ b0 b1 b2, decode w = .ok (.enc3 b0 b1 b2) := by
  obtain ⟨op, n, d, rfl⟩ := exists_commandWord w
  exact (and_opN_eq_iff (op' := 1) (n' := 3)).trans (by simp [decode_commandWord_eq_ok_iff, Spells])

theorem and_mask_eq_enc4_iff :
    w &&& 0xFF00000000 = 0x1400000000 ↔ ∃ b0 b1 b2 b3, decode w = .ok (.enc4 b0 b1 b2 b3) := by
  obtain ⟨op, n, d, rfl⟩ := exists_commandWord w
  exact (and_opN_eq_iff (op' := 1) (n' := 4)).trans (by simp [decode_commandWord_eq_ok_iff, Spells])

theorem and_mask_eq_dec_iff : w &&& 0xF000000000 = 0x2000000000 ↔ ∃ sym, decode w = .ok (.dec sym) := by
  obtain ⟨op, n, d, rfl⟩ := exists_commandWord w
  exact (and_op_eq_iff (op' := 2)).trans (by simp [decode_commandWord_eq_ok_iff, Spells])

theorem and_mask_eq_dfl_iff : w &&& 0xF000000000 = 0x3000000000 ↔ decode w = .ok .dfl := by
  obtain ⟨op, n, d, rfl⟩ := exists_commandWord w
  exact (and_op_eq_iff (op' := 3)).trans (decode_commandWord_eq_ok_iff (i := .dfl)).symm

theorem and_mask_eq_cfg_iff : w &&& 0xF000000000 = 0x4000000000 ↔ ∃ ts gs, decode w = .ok (.cfg ts gs) := by
  obtain ⟨op, n, d, rfl⟩ := exists_commandWord w
  exact (and_op_eq_iff (op' := 4)).trans (by simp [decode_commandWord_eq_ok_iff, Spells])

theorem and_mask_eq_clr_iff : w &&& 0xF000000000 = 0x5000000000 ↔ decode w = .ok .clr := by
  obtain ⟨op, n, d, rfl⟩ := exists_commandWord w
  exact (and_op_eq_iff (op' := 5)).trans (decode_commandWord_eq_ok_iff (i := .clr)).symm

theorem and_mask_eq_stat_iff : w &&& 0xF000000000 = 0x6000000000 ↔ decode w = .ok .stat := by
  obtain ⟨op, n, d, rfl⟩ := exists_commandWord w
  exact (and_op_eq_iff (op' := 6)).trans (decode_commandWord_eq_ok_iff (i := .stat)).symm

end Rows

/-- A word that matches two rows makes their patterns agree under both masks. -/
theorem pattern_and_mask_eq {r q : OpcodeRow} {w : CommandWord} (hr : r.matchesWord w = true)
    (hq : q.matchesWord w = true) : r.pattern &&& q.mask = q.pattern &&& r.mask := by
  rw [← eq_of_beq hr, ← eq_of_beq hq, BitVec.and_assoc, BitVec.and_assoc, BitVec.and_comm r.mask]

theorem opcodeMap_rows_disjoint (w : CommandWord) :
    opcodeMap.Pairwise fun r q => ¬ (r.matchesWord w = true ∧ q.matchesWord w = true) := by
  have hdisjoint : opcodeMap.Pairwise fun r q => r.pattern &&& q.mask ≠ q.pattern &&& r.mask := by decide
  exact hdisjoint.imp fun hne hboth => hne (pattern_and_mask_eq hboth.1 hboth.2)

/-- A word matches no row exactly where it spells no command (30_encoding.md R85, R98). -/
theorem forall_matchesWord_eq_false_iff (w : CommandWord) :
    (∀ r ∈ opcodeMap, r.matchesWord w = false) ↔ ∃ e, decode w = .error e := by
  simp only [opcodeMap, List.forall_mem_cons, OpcodeRow.matchesWord, beq_eq_false_iff_ne, ne_eq, and_mask_eq_enc1_iff,
    and_mask_eq_enc2_iff, and_mask_eq_enc3_iff, and_mask_eq_enc4_iff, and_mask_eq_dec_iff, and_mask_eq_dfl_iff,
    and_mask_eq_cfg_iff, and_mask_eq_clr_iff, and_mask_eq_stat_iff]
  cases decode w with
  | error e => simp
  | ok i => cases i <;> simp

/-- Settles O21: each row's mask shows the fields that spell its command, and any two rows differ where both masks look. -/
theorem opcodeMapDecidesTheDecoder : Obligations.OpcodeMapDecidesTheDecoder := by
  intro w
  exact ⟨and_mask_eq_enc1_iff w, and_mask_eq_enc2_iff w, and_mask_eq_enc3_iff w, and_mask_eq_enc4_iff w,
    and_mask_eq_dec_iff w, and_mask_eq_dfl_iff w, and_mask_eq_cfg_iff w, and_mask_eq_clr_iff w, and_mask_eq_stat_iff w,
    opcodeMap_rows_disjoint w, forall_matchesWord_eq_false_iff w⟩

/-- Settles O22: the decoder evaluated on each word. -/
theorem specWordsDecodeToTheirCommands : Obligations.SpecWordsDecodeToTheirCommands := by
  unfold Obligations.SpecWordsDecodeToTheirCommands
  decide

end Sys2Proof.Machine
end

section
/-! SUPPORT. Family 30_encoding.md, the ROM images against their listings (30_encoding.md R90, R91, R93, R94, R95). -/

namespace Sys2Proof.Machine

theorem standardRom_distinct : standardRom.distinct = true := by decide

theorem encRom_standardRom_toNat (d : Fin 85) : (encRom standardRom d).toNat = 33 + d.val := by
  have hentry : encRom standardRom d = BitVec.ofNat 8 (33 + d.val) := by simp [encRom, standardRom]
  rw [hentry, BitVec.toNat_ofNat]
  omega

/-- Settles O23: STANDARD by its formula, ZEROMQ entry by entry. -/
theorem romImagesAreTheListings : Obligations.RomImagesAreTheListings :=
  ⟨encRom_standardRom_toNat, by decide, by decide, by decide, rfl⟩

/-- Settles O25: a byte from 33 to 117 is the entry of the digit 33 below it, and no other byte is an entry. -/
theorem standardDecodingRom : Obligations.StandardDecodingRom := by
  intro sym
  split_ifs with hrange
  · obtain ⟨hlow, hhigh⟩ := hrange
    have hdigit : sym.toNat - 33 < 85 := by omega
    have hentry : encRom standardRom ⟨sym.toNat - 33, hdigit⟩ = sym := by
      apply BitVec.eq_of_toNat_eq
      rw [encRom_standardRom_toNat]
      exact Nat.add_sub_cancel' hlow
    rw [(decRom_eq_some_iff standardRom_distinct).mpr hentry, Option.map_some]
  · rw [decRom_eq_none_iff.mpr, Option.map_none]
    rintro d rfl
    rw [encRom_standardRom_toNat] at hrange
    omega

/-- A listing of bytes with their digits is the decoding ROM where it lists every entry under its digit and lists nothing
else. -/
theorem decRom_eq_lookup {rom : Rom} {listing : List (Nat × Nat)}
    (hlisted : ∀ d : Fin 85, listing.lookup (encRom rom d).toNat = some d.val)
    (hentries : ∀ p ∈ listing, ∃ h : p.2 < 85, (encRom rom ⟨p.2, h⟩).toNat = p.1) (sym : Byte) :
    (decRom rom sym).map Fin.val = listing.lookup sym.toNat := by
  cases h : decRom rom sym with
  | some d => rw [← encRom_of_decRom h, hlisted, Option.map_some]
  | none =>
    symm
    rw [Option.map_none, List.lookup_eq_none_iff]
    intro p hp
    obtain ⟨hdigit, hentry⟩ := hentries p hp
    rw [bne_iff_ne, ← hentry]
    exact fun heq => decRom_eq_none h ⟨p.2, hdigit⟩ (BitVec.eq_of_toNat_eq heq.symm)

/-- A digit whose symbol is a shortcut's is never what the decoder takes a byte for (41_decoder.md R156). -/
theorem classify_ne_digit {rom : Rom} {d : Fin 85} (h : encRom rom d = zSym ∨ encRom rom d = ySym) (sym : Byte) :
    classify rom sym ≠ .digit d := by
  intro hdigit
  obtain ⟨hz, hy, hdec⟩ := classify_eq_digit_iff.mp hdigit
  rw [encRom_of_decRom hdec] at h
  exact h.elim hz hy

/-- Settles O26: the listing has each entry of ZEROMQ under its digit, and digits 34 and 35 are written `y` and `z`. -/
theorem zeromqDecodingRom : Obligations.ZeromqDecodingRom :=
  ⟨decRom_eq_lookup (by decide) (by decide), fun sym =>
    ⟨classify_ne_digit (.inr rfl) sym, classify_ne_digit (.inl rfl) sym⟩⟩

end Sys2Proof.Machine
end

section
/-! SUPPORT. Family 30_encoding.md, the assembler: every line but `.word` emits encodings of commands (30_encoding.md R99,
R100). -/

namespace Sys2Proof.Machine

/-! ### Operands -/

theorem allSome_map_eq_some {α : Type} {f : α → Option Byte} {g : α → Byte} {l : List α}
    (h : ∀ x ∈ l, f x = some (g x)) : allSome (l.map f) = some (l.map g) := by
  induction l with
  | nil => rfl
  | cons x rest ih =>
    rw [List.forall_mem_cons] at h
    obtain ⟨hx, hrest⟩ := h
    rw [List.map_cons, hx, allSome, ih hrest, Option.map_some, List.map_cons]

theorem values_quoted {chars : List Char} (h : ∀ c ∈ chars, c.toNat < 128) :
    (ByteArg.quoted chars).values? = some (chars.map fun c => BitVec.ofNat 8 c.toNat) :=
  allSome_map_eq_some fun c hc => if_pos (h c hc)

theorem values_bytes {values : List Nat} (h : ∀ n ∈ values, n < 256) :
    (ByteArg.bytes values).values? = some (values.map (BitVec.ofNat 8)) :=
  allSome_map_eq_some fun n hn => if_pos (h n hn)

/-! ### Groups -/

/-- A group of 1 to 4 bytes has its encode command (30_encoding.md R82). -/
theorem exists_encInstr {group : List Byte} (hpos : 1 ≤ group.length) (hmax : group.length ≤ 4) :
    ∃ i, encInstr group = some i := by
  match group with
  | [_] => exact ⟨_, rfl⟩
  | [_, _] => exact ⟨_, rfl⟩
  | [_, _, _] => exact ⟨_, rfl⟩
  | [_, _, _, _] => exact ⟨_, rfl⟩
  | [] => simp at hpos
  | _ :: _ :: _ :: _ :: _ :: _ => simp at hmax; omega

/-- ENCM encodes the first group of up to four bytes, then the rest (30_encoding.md R100). -/
theorem encmInstrs_eq_cons {bs : List Byte} (hne : bs ≠ []) :
    ∃ i, encInstr (bs.take 4) = some i ∧ encmInstrs bs = i :: encmInstrs (bs.drop 4) := by
  match bs with
  | [] => exact absurd rfl hne
  | [_] => exact ⟨_, rfl, rfl⟩
  | [_, _] => exact ⟨_, rfl, rfl⟩
  | [_, _, _] => exact ⟨_, rfl, rfl⟩
  | _ :: _ :: _ :: _ :: _ => exact ⟨_, rfl, rfl⟩

/-- ENCM emits one command for each group of four bytes and one for the rest. -/
theorem encmInstrs_length (bs : List Byte) : (encmInstrs bs).length = (bs.length + 3) / 4 := by
  induction bs using encmInstrs.induct with
  | case1 b0 b1 b2 b3 rest ih => simp only [encmInstrs, List.length_cons, ih]; omega
  | case2 b0 b1 b2 => simp [encmInstrs]
  | case3 b0 b1 => simp [encmInstrs]
  | case4 b0 => simp [encmInstrs]
  | case5 => simp [encmInstrs]

/-- Command `g` of ENCM is the encode command of group `g`. -/
theorem encmInstrs_getElem? {bs : List Byte} {g : Nat} (hg : 4 * g < bs.length) :
    ∃ i, (encmInstrs bs)[g]? = some i ∧ encInstr ((bs.drop (4 * g)).take 4) = some i := by
  induction g generalizing bs with
  | zero =>
    obtain ⟨i, hi, hcons⟩ := encmInstrs_eq_cons (List.ne_nil_of_length_pos (by omega : 0 < bs.length))
    exact ⟨i, by rw [hcons]; rfl, hi⟩
  | succ g ih =>
    obtain ⟨first, -, hcons⟩ := encmInstrs_eq_cons (List.ne_nil_of_length_pos (by omega : 0 < bs.length))
    obtain ⟨i, hget, hi⟩ := ih (bs := bs.drop 4) (by rw [List.length_drop]; omega)
    refine ⟨i, by rw [hcons, List.getElem?_cons_succ, hget], ?_⟩
    rwa [List.drop_drop, Nat.add_comm, ← Nat.mul_succ] at hi

/-! ### Lines -/

/-- Every line but the raw form emits encodings of commands. -/
theorem assemble_eq_map_encode {line : AsmLine} {ws : List CommandWord} (hraw : ∀ n, line ≠ .word n)
    (h : assemble line = some ws) : ∃ is : List Instr, ws = is.map encode := by
  cases line with
  | enc n arg =>
    obtain ⟨bs, -, hbs⟩ := Option.bind_eq_some_iff.mp h
    split_ifs at hbs
    obtain ⟨i, -, rfl⟩ := Option.map_eq_some_iff.mp hbs
    exact ⟨[i], rfl⟩
  | dec arg =>
    obtain ⟨bs, -, hbs⟩ := Option.bind_eq_some_iff.mp h
    split at hbs <;> cases hbs
    exact ⟨[_], rfl⟩
  | cfg t gs =>
    simp only [assemble] at h
    split_ifs at h
    obtain ⟨ts, -, rfl⟩ := Option.map_eq_some_iff.mp h
    exact ⟨[_], rfl⟩
  | dfl => cases h; exact ⟨[_], rfl⟩
  | clr => cases h; exact ⟨[_], rfl⟩
  | stat => cases h; exact ⟨[_], rfl⟩
  | word w => exact absurd rfl (hraw w)
  | decs text => obtain ⟨bs, -, rfl⟩ := Option.map_eq_some_iff.mp h; exact ⟨_, rfl⟩
  | encm arg => obtain ⟨bs, -, rfl⟩ := Option.map_eq_some_iff.mp h; exact ⟨_, rfl⟩
  | decm text => obtain ⟨bs, -, rfl⟩ := Option.map_eq_some_iff.mp h; exact ⟨_, rfl⟩

theorem assemble_enc {arg : ByteArg} {bs : List Byte} {i : Instr} (hbs : arg.values? = some bs)
    (hi : encInstr bs = some i) : assemble (.enc bs.length arg) = some [encode i] := by
  simp [assemble, hbs, hi]

theorem assemble_dec {arg : ByteArg} {b : Byte} (hb : arg.values? = some [b]) :
    assemble (.dec arg) = some [encode (.dec b)] := by
  simp [assemble, hb]

theorem assemble_cfg {t : TselArg} {ts : BitVec 2} {gs : Nat} (hts : t.value? = some ts) (hgs : gs < 2) :
    assemble (.cfg t gs) = some [encode (.cfg ts (BitVec.ofNat 1 gs))] := by
  simp [assemble, hts, hgs]

theorem assemble_word (w : CommandWord) : assemble (.word w.toNat) = some [w] := by
  simp [assemble, w.isLt]

theorem assemble_decs {text : List Char} {bs : List Byte} (hbs : (ByteArg.quoted text).values? = some bs) :
    assemble (.decs text) = some ((decsInstrs bs).map encode) := by
  simp [assemble, hbs]

theorem assemble_decm {text : List Char} {bs : List Byte} (hbs : (ByteArg.quoted text).values? = some bs) :
    assemble (.decm text) = some ((decsInstrs bs).map encode ++ [encode .dfl]) := by
  simp [assemble, hbs, decmInstrs]

theorem assemble_encm {arg : ByteArg} {bs : List Byte} (hbs : arg.values? = some bs) :
    assemble (.encm arg) = some ((encmInstrs bs).map encode) := by
  simp [assemble, hbs]

/-- Settles O60: a line emits encodings, and an encoding decodes back. -/
theorem assemblerLinesDecodeToTheirCommands : Obligations.AssemblerLinesDecodeToTheirCommands := by
  refine ⟨fun _ => values_quoted, fun _ => values_bytes, fun line ws hraw h w hw => ?_, fun n arg bs hbs hn hpos hmax => ?_,
    fun arg b hb => ⟨_, assemble_dec hb, decode_encode _⟩, fun gs hgs => ⟨?_, ?_, ?_, fun n hn => ?_⟩,
    ⟨_, rfl, decode_encode .dfl⟩, ⟨_, rfl, decode_encode .clr⟩, ⟨_, rfl, decode_encode .stat⟩, assemble_word,
    fun text bs hbs => ⟨_, assemble_decs hbs, ?_, _, assemble_decm hbs, decode_encode _⟩,
    fun arg bs hbs => ⟨_, assemble_encm hbs, ?_, fun g hg => ?_⟩⟩
  · obtain ⟨is, rfl⟩ := assemble_eq_map_encode hraw h
    obtain ⟨i, -, rfl⟩ := List.mem_map.mp hw
    exact ⟨i, decode_encode i, encode_and_readBits i⟩
  · subst hn
    obtain ⟨i, hi⟩ := exists_encInstr hpos hmax
    exact ⟨_, i, assemble_enc hbs hi, decode_encode i, hi⟩
  · exact ⟨_, assemble_cfg rfl hgs, decode_encode _⟩
  · exact ⟨_, assemble_cfg rfl hgs, decode_encode _⟩
  · exact ⟨_, assemble_cfg rfl hgs, decode_encode _⟩
  · exact ⟨_, assemble_cfg (if_pos hn) hgs, decode_encode _⟩
  · simp [decsInstrs]
  · rw [List.length_map, encmInstrs_length]
  · obtain ⟨i, hget, hi⟩ := encmInstrs_getElem? hg
    exact ⟨encode i, i, by rw [List.getElem?_map, hget, Option.map_some], decode_encode i, hi⟩

end Sys2Proof.Machine
end

section
/-! SUPPORT. Family 30_encoding.md, the response of a word: RC, CNT and the padding (30_encoding.md R87 to R89). -/

namespace Sys2Proof.Machine

/-- A good response that is not OK is empty (30_encoding.md R87). -/
theorem GoodResponse.eq_illegal {r : ResponseWord} (h : GoodResponse r) (hrc : rcOf r ≠ 0x0) : r = 0x100000000000 :=
  h.rc.resolve_left hrc

/-- Every word that is answered adds one good response to RQ. -/
theorem runWord_response {w : CommandWord} {s t : State} (h : runWord exec w s = .next t) :
    ∃ r, GoodResponse r ∧ t.rq = s.rq ++ [r] := by
  unfold runWord at h
  cases hd : decode w with
  | ok i =>
    rw [hd] at h
    exact (exec_queue h).2
  | error e =>
    rw [hd] at h
    cases h
    exact ⟨_, goodResponse_illegal, rfl⟩

/-- Settles O16: every response is a good one. -/
theorem responseWordsAreWellFormed : Obligations.ResponseWordsAreWellFormed := by
  intro w s t h
  obtain ⟨r, hgood, hrq⟩ := runWord_response h
  refine ⟨r, hrq, ?_, fun hrc => ?_, hgood.padding⟩
  · obtain hok | rfl := hgood.rc
    · exact .inl hok
    · exact .inr (by decide)
  · obtain rfl := hgood.eq_illegal (by rw [hrc]; decide)
    decide

/-! ### The range of CNT -/

/-- The values of CNT a command can answer with (30_encoding.md R88). -/
def CountInRange : Instr → Nat → Prop
  | .enc4 _ _ _ _, c => c = 1 ∨ c = 5
  | .enc3 _ _ _, c => c = 4
  | .enc2 _ _, c => c = 3
  | .enc1 _, c => c = 2
  | .dec _, c => c = 0 ∨ c = 4
  | .dfl, c => c ≤ 3
  | .cfg _ _, c => c = 0
  | .clr, c => c = 0
  | .stat, c => c = 3

/-- The outcome is a next state, with one response more whose CNT is as `p` says. -/
def AnswersCount (s : State) (o : Host.Outcome State Fault Refusal) (p : Nat → Prop) : Prop :=
  ∃ t r, o = .next t ∧ t.rq = s.rq ++ [r] ∧ p (cntOf r)

theorem answersCount_next {s t : State} {p : Nat → Prop} {rc : ResultCode} {ovf : Bool} {seq : List Byte}
    (hrq : t.rq = s.rq ++ [respWord rc ovf seq]) (hlen : seq.length ≤ 5) (hp : p seq.length) :
    AnswersCount s (.next t) p :=
  ⟨t, _, rfl, hrq, by rwa [cntOf_respWord, Nat.mod_eq_of_lt (by omega)]⟩

theorem AnswersCount.mono {s : State} {o : Host.Outcome State Fault Refusal} {p q : Nat → Prop}
    (h : AnswersCount s o p) (hpq : ∀ c, p c → q c) : AnswersCount s o q := by
  obtain ⟨t, r, ho, hrq, hp⟩ := h
  exact ⟨t, r, ho, hrq, hpq _ hp⟩

/-- The truncated expansion answers as many symbols as it is asked for. -/
theorem respondSymbols_answersCount {b : Build} {s : State} {rom : Rom} (hrom : romOf b s.tsel = some rom)
    (w : BitVec 32) {k : Nat} (hk : k ≤ 5) : AnswersCount s (respondSymbols b w k s) (· = k) := by
  have hlen : (((digits5 w).take k).map (encRom rom)).length = k := by simp [digits5, hk]
  obtain ⟨rom', hrom', h⟩ | ⟨hnone, -⟩ := respondSymbols_cases b w k s
  · obtain rfl : rom = rom' := Option.some.inj (hrom.symm.trans hrom')
    rw [h]
    exact answersCount_next rfl (hlen.trans_le hk) hlen
  · rw [hrom] at hnone
    cases hnone

/-- A closed group answers the bytes it is asked for. -/
theorem closeGroup_answersCount (s : State) (v : Nat) {k : Nat} (hk : k ≤ 4) :
    AnswersCount s (.next (s.closeGroup v k)) (· = k) := by
  have hlen := bytesOf_length (BitVec.ofNat 32 v) k hk
  exact answersCount_next rfl (by omega) hlen

theorem State.takeDigit_answersCount {s : State} (hdcnt : s.dcnt.toNat ≤ 4) (d : Fin 85) :
    AnswersCount s (s.takeDigit d) fun c => c = 0 ∨ c = 4 := by
  obtain ⟨-, h⟩ | ⟨-, h⟩ | ⟨hcount, -⟩ := s.takeDigit_cases d
  · rw [h]; exact answersCount_next rfl (Nat.zero_le 5) (.inl rfl)
  · rw [h]; exact (closeGroup_answersCount s _ le_rfl).mono fun _ => .inr
  · omega

theorem enc4On_answersCount {b : Build} {s : State} {rom : Rom} (hrom : romOf b s.tsel = some rom)
    (b0 b1 b2 b3 : Byte) : AnswersCount s (enc4On b b0 b1 b2 b3 s) fun c => c = 1 ∨ c = 5 := by
  unfold enc4On
  split_ifs
  · exact answersCount_next rfl (by simp) (.inl rfl)
  · exact answersCount_next rfl (by simp) (.inl rfl)
  · exact (respondSymbols_answersCount hrom _ le_rfl).mono fun _ => .inr

theorem decOn_answersCount {b : Build} {s : State} {rom : Rom} (hrom : romOf b s.tsel = some rom)
    (hdcnt : s.dcnt.toNat ≤ 4) (sym : Byte) : AnswersCount s (decOn b sym s) fun c => c = 0 ∨ c = 4 := by
  simp only [decOn, hrom]
  split_ifs
  · exact answersCount_next rfl (by simp) (.inr rfl)
  · exact answersCount_next rfl (by simp) (.inr rfl)
  · cases decRom rom sym with
    | some d => exact s.takeDigit_answersCount hdcnt d
    | none => exact answersCount_next rfl (by simp) (.inl rfl)

theorem execDfl_answersCount {s : State} (hdcnt : s.dcnt.toNat ≤ 4) : AnswersCount s (execDfl s) (· ≤ 3) := by
  unfold execDfl
  split_ifs
  · exact answersCount_next rfl (Nat.zero_le 5) (Nat.zero_le 3)
  · exact (closeGroup_answersCount s _ (by omega)).mono fun c hc => by omega

theorem cfgOn_answersCount (b : Build) (ts : BitVec 2) (gs : BitVec 1) (s : State) :
    AnswersCount s (.next (cfgOn b ts gs s)) (· = 0) := by
  unfold cfgOn
  split_ifs
  · exact answersCount_next rfl (Nat.zero_le 5) rfl
  · exact answersCount_next rfl (Nat.zero_le 5) rfl

/-- Where the registers are good every command answers, with CNT in its range. -/
theorem exec_answersCount {s : State} (h : GoodRegisters Config.build s) (i : Instr) :
    AnswersCount s (exec i s) (CountInRange i) := by
  obtain ⟨rom, hrom⟩ := exists_romOf h.tsel
  cases i with
  | enc1 b0 => exact respondSymbols_answersCount hrom _ (by omega)
  | enc2 b0 b1 => exact respondSymbols_answersCount hrom _ (by omega)
  | enc3 b0 b1 b2 => exact respondSymbols_answersCount hrom _ (by omega)
  | enc4 b0 b1 b2 b3 => exact enc4On_answersCount hrom _ _ _ _
  | dec sym => exact decOn_answersCount hrom h.dcnt sym
  | dfl => exact execDfl_answersCount h.dcnt
  | cfg ts gs => exact cfgOn_answersCount _ ts gs s
  | clr => exact answersCount_next rfl (Nat.zero_le 5) rfl
  | stat => exact answersCount_next rfl (by simp [statBytes]) rfl

/-- Settles O15: every command answers within its range, and an ILLEGAL response is empty. -/
theorem responseCountsStayInTheirRange : Obligations.ResponseCountsStayInTheirRange := by
  intro w s hinv
  cases hd : decode w with
  | error e =>
    exact ⟨s.raiseIllegal, respWord .illegal false [], by rw [runWord, hd], rfl, fun _ => cntOf_respWord _ _ _,
      goodResponse_illegal.cnt, rcOf_respWord _ _ _⟩
  | ok i =>
    obtain ⟨t, r, hexec, hrq, hcount⟩ := exec_answersCount hinv.goodRegisters i
    have hrun : runWord exec w s = .next t := by rw [runWord, hd, ← hexec]
    obtain ⟨r', hgood, hrq'⟩ := runWord_response hrun
    obtain rfl : r = r' := by simpa [hrq] using hrq'
    refine ⟨t, r, hrun, hrq, fun hrc => ?_, hgood.cnt, ?_⟩
    · rw [hgood.eq_illegal hrc]
      decide
    · cases i <;> exact hcount

end Sys2Proof.Machine
end

section
/-! SUPPORT. Family 40_encoder.md, the radix converter (40_encoder.md R120). -/

namespace Sys2Proof.Machine

/-- Dividing `i` times by 85 is dividing once by `85 ^ i`. -/
theorem iterate_div_85 (i n : Nat) : (fun v => v / 85)^[i] n = n / 85 ^ i := by
  induction i with
  | zero => exact (Nat.div_one n).symm
  | succ i ih => rw [Function.iterate_succ_apply', ih, Nat.div_div_eq_div_mul, pow_succ]

/-- The five digits of a 32-bit value give the value back, because it is below `85 ^ 5`. -/
theorem toNat_eq_digits (w : BitVec 32) :
    w.toNat = (digit w 0).val * 85 ^ 4 + (digit w 1).val * 85 ^ 3 + (digit w 2).val * 85 ^ 2 + (digit w 3).val * 85 +
      (digit w 4).val := by
  have hw := w.isLt
  simp only [digit_val, Nat.reducePow, Nat.reduceSub]
  omega

theorem digit_zero_le (w : BitVec 32) : (digit w 0).val ≤ 82 := by
  have hw := w.isLt
  rw [digit_val]
  omega

/-- Settles O28: digit `4 - i` is the remainder after `i` divisions, and five digits are enough for 32 bits. -/
theorem radixConverterIsExact : Obligations.RadixConverterIsExact := by
  intro w
  refine ⟨rfl, fun i _ => digit_val w i, fun i hi => ?_, toNat_eq_digits w, digit_zero_le w⟩
  rw [iterate_div_85]
  exact (digit_val w (4 - i)).trans (by rw [Nat.sub_sub_self (Nat.le_of_lt_succ hi)])

end Sys2Proof.Machine
end

section
/-! SUPPORT. Family 40_encoder.md, the words of ENC1 to ENC4: which word spells which group, and the group's value
(30_encoding.md R83, R98, 40_encoder.md R121). -/

namespace Sys2Proof.Machine

/-- Masked to OP and N, a word shows those two fields. -/
theorem and_mask_opN_eq_iff {w : CommandWord} {op n : BitVec 4} :
    w &&& 0xFF00000000 = commandWord op n 0 ↔ opField w = op ∧ nField w = n := by
  conv_lhs => rw [← commandWord_fields w]
  exact and_opN_eq_iff

/-- A byte of DATA is the byte of the word at the same place (30_encoding.md R80). -/
theorem dataField_byte (w : CommandWord) {start : Nat} (h : start + 8 ≤ 32 := by decide) :
    (dataField w).extractLsb' start 8 = w.extractLsb' start 8 :=
  BitVec.extractLsb'_extractLsb'_of_le h

/-- The decoder answers exactly the instruction that the fields of the word spell. -/
theorem decode_eq_ok_iff_spells {w : CommandWord} {i : Instr} :
    decode w = .ok i ↔ Spells (opField w) (nField w) (dataField w) i := by
  conv_lhs => rw [← commandWord_fields w]
  exact decode_commandWord_eq_ok_iff

section Rows
variable {w : CommandWord}

theorem decode_enc1_of_and_mask (h : w &&& 0xFF00000000 = 0x1100000000) :
    decode w = .ok (.enc1 (w.extractLsb' 24 8)) := by
  obtain ⟨hop, hn⟩ := (and_mask_opN_eq_iff (op := 1) (n := 1)).mp h
  exact decode_eq_ok_iff_spells.mpr ⟨hop, hn, dataField_byte w⟩

theorem decode_enc2_of_and_mask (h : w &&& 0xFF00000000 = 0x1200000000) :
    decode w = .ok (.enc2 (w.extractLsb' 24 8) (w.extractLsb' 16 8)) := by
  obtain ⟨hop, hn⟩ := (and_mask_opN_eq_iff (op := 1) (n := 2)).mp h
  exact decode_eq_ok_iff_spells.mpr ⟨hop, hn, dataField_byte w, dataField_byte w⟩

theorem decode_enc3_of_and_mask (h : w &&& 0xFF00000000 = 0x1300000000) :
    decode w = .ok (.enc3 (w.extractLsb' 24 8) (w.extractLsb' 16 8) (w.extractLsb' 8 8)) := by
  obtain ⟨hop, hn⟩ := (and_mask_opN_eq_iff (op := 1) (n := 3)).mp h
  exact decode_eq_ok_iff_spells.mpr ⟨hop, hn, dataField_byte w, dataField_byte w, dataField_byte w⟩

theorem decode_enc4_of_and_mask (h : w &&& 0xFF00000000 = 0x1400000000) :
    decode w = .ok (.enc4 (w.extractLsb' 24 8) (w.extractLsb' 16 8) (w.extractLsb' 8 8) (w.extractLsb' 0 8)) := by
  obtain ⟨hop, hn⟩ := (and_mask_opN_eq_iff (op := 1) (n := 4)).mp h
  exact decode_eq_ok_iff_spells.mpr ⟨hop, hn, dataField_byte w, dataField_byte w, dataField_byte w, dataField_byte w⟩

end Rows

/-- The DATA of a command's encoding is the DATA of any word that spells it, masked to the bits the command reads. -/
theorem dataField_encode_of_decode {w : CommandWord} {i : Instr} (h : decode w = .ok i) :
    dataField (encode i) = dataField w &&& dataField i.mnemonic.readBits := by
  rw [← decode_eq_ok_iff.mp h]
  exact BitVec.extractLsb'_and

theorem dataField_readBits_enc1 : dataField Mnemonic.ENC1.readBits = 0xFF000000 := by decide
theorem dataField_readBits_enc2 : dataField Mnemonic.ENC2.readBits = 0xFFFF0000 := by decide
theorem dataField_readBits_enc3 : dataField Mnemonic.ENC3.readBits = 0xFFFFFF00 := by decide
theorem dataField_readBits_enc4 : dataField Mnemonic.ENC4.readBits = 0xFFFFFFFF := by decide

theorem groupValue1_eq_dataField (b0 : Byte) : groupValue1 b0 = dataField (encode (.enc1 b0)) := by
  rw [encode, dataField_commandWord, groupValue1, packGroup, BitVec.append_assoc, BitVec.append_assoc]
  rfl

theorem groupValue2_eq_dataField (b0 b1 : Byte) : groupValue2 b0 b1 = dataField (encode (.enc2 b0 b1)) := by
  rw [encode, dataField_commandWord]
  exact BitVec.append_assoc

theorem groupValue3_eq_dataField (b0 b1 b2 : Byte) : groupValue3 b0 b1 b2 = dataField (encode (.enc3 b0 b1 b2)) :=
  (dataField_commandWord _ _ _).symm

theorem groupValue4_eq_dataField (b0 b1 b2 b3 : Byte) :
    groupValue4 b0 b1 b2 b3 = dataField (encode (.enc4 b0 b1 b2 b3)) :=
  (dataField_commandWord _ _ _).symm

/-- Settles O33: the group value is the DATA of the encoding, which holds the bits the command reads and no others. -/
theorem groupValueIsTheMaskedData : Obligations.GroupValueIsTheMaskedData := by
  intro w
  refine ⟨fun b0 h => ?_, fun b0 b1 h => ?_, fun b0 b1 b2 h => ?_, fun b0 b1 b2 b3 h => ?_⟩
  · rw [groupValue1_eq_dataField, dataField_encode_of_decode h, Instr.mnemonic, dataField_readBits_enc1]
  · rw [groupValue2_eq_dataField, dataField_encode_of_decode h, Instr.mnemonic, dataField_readBits_enc2]
  · rw [groupValue3_eq_dataField, dataField_encode_of_decode h, Instr.mnemonic, dataField_readBits_enc3]
  · rw [groupValue4_eq_dataField, dataField_encode_of_decode h, Instr.mnemonic, dataField_readBits_enc4]

end Sys2Proof.Machine
end

section
/-! SUPPORT. Family 40_encoder.md, the answers of ENC1 to ENC4: the symbols as a function of the image, GS and the group
alone (40_encoder.md R122 to R127, R130). -/

namespace Sys2Proof.Machine

/-- The first `k` symbols of a value through an image (40_encoder.md R120). -/
def expansion (rom : Rom) (w : BitVec 32) (k : Nat) : List Byte := ((digits5 w).take k).map (encRom rom)

/-- The symbols of an ENC command through an image under GS (40_encoder.md R122, R125 to R127). Others have none. -/
def encodedSymbols (rom : Rom) (gs : BitVec 1) : Instr → List Byte
  | .enc1 b0 => expansion rom (groupValue1 b0) 2
  | .enc2 b0 b1 => expansion rom (groupValue2 b0 b1) 3
  | .enc3 b0 b1 b2 => expansion rom (groupValue3 b0 b1 b2) 4
  | .enc4 b0 b1 b2 b3 =>
    if zdet 4 (groupValue4 b0 b1 b2 b3) then [zSym]
    else if sdet 4 gs (groupValue4 b0 b1 b2 b3) then [ySym]
    else expansion rom (groupValue4 b0 b1 b2 b3) 5
  | _ => []

theorem respondSymbols_of_romOf_eq_some {b : Build} {s : State} {rom : Rom} (hrom : romOf b s.tsel = some rom)
    (w : BitVec 32) (k : Nat) : respondSymbols b w k s = .next (s.respond .ok false (expansion rom w k)) := by
  simp only [respondSymbols, hrom, expansion]

/-- Where TSEL names an image, an ENC command answers its symbols and changes nothing else. -/
theorem exec_of_encodes {i : Instr} {s : State} {rom : Rom} (henc : encodes i = true)
    (hrom : romOf Config.build s.tsel = some rom) :
    exec i s = .next (s.respond .ok false (encodedSymbols rom s.gs i)) := by
  cases i with
  | enc1 b0 => exact respondSymbols_of_romOf_eq_some hrom _ _
  | enc2 b0 b1 => exact respondSymbols_of_romOf_eq_some hrom _ _
  | enc3 b0 b1 b2 => exact respondSymbols_of_romOf_eq_some hrom _ _
  | enc4 b0 b1 b2 b3 =>
    simp only [exec, execEnc4, enc4On, encodedSymbols]
    split_ifs
    · rfl
    · rfl
    · exact respondSymbols_of_romOf_eq_some hrom _ _
  | dec | dfl | cfg | clr | stat => cases henc

/-- Settles O34: the symbols are a function of the selected image, GS and the command. -/
theorem encoderHoldsNoState : Obligations.EncoderHoldsNoState := by
  intro i c henc himage
  obtain ⟨rom, hrom⟩ := exists_romOf himage
  refine ⟨respWord .ok false (encodedSymbols rom (c.extractLsb' 0 1) i), fun s hcfg => ?_⟩
  subst hcfg
  exact exec_of_encodes henc hrom

/-! ### The answers as words -/

/-- An OK response without overflow is its count and its five bytes (30_encoding.md R86). -/
theorem respWord_ok_eq_append {seq : List Byte} (h : seq.length < 8) :
    respWord .ok false seq = BitVec.ofNat 8 seq.length ++ seq.getD 0 0 ++ seq.getD 1 0 ++ seq.getD 2 0 ++
      seq.getD 3 0 ++ seq.getD 4 0 := by
  apply BitVec.eq_of_toNat_eq
  have hcode : ResultCode.ok.code.toNat = 0 := rfl
  have hovf : (BitVec.ofBool false).toNat = 0 := rfl
  have hlen : (BitVec.ofNat 8 seq.length).toNat = seq.length := Nat.mod_eq_of_lt (by omega)
  rw [respWord_toNat, packBytes_toNat, hcode, hovf, Nat.mod_eq_of_lt h]
  refine Eq.trans ?_ (append_toNat (n := 40) _ _).symm
  rw [append_toNat, append_toNat, append_toNat, append_toNat, hlen]
  omega

section Padding
variable (a b c d e : Byte)

theorem respWord_ok_five : respWord .ok false [a, b, c, d, e] = 0x05#8 ++ a ++ b ++ c ++ d ++ e :=
  respWord_ok_eq_append (by simp)

theorem respWord_ok_four : respWord .ok false [a, b, c, d] = 0x04#8 ++ a ++ b ++ c ++ d ++ 0#8 :=
  respWord_ok_eq_append (by simp)

theorem respWord_ok_three : respWord .ok false [a, b, c] = 0x03#8 ++ a ++ b ++ c ++ 0#16 :=
  calc respWord .ok false [a, b, c]
    _ = 0x03#8 ++ a ++ b ++ c ++ 0#8 ++ 0#8 := respWord_ok_eq_append (by simp)
    _ = 0x03#8 ++ a ++ b ++ c ++ 0#16 := BitVec.append_assoc

theorem respWord_ok_two : respWord .ok false [a, b] = 0x02#8 ++ a ++ b ++ 0#24 :=
  calc respWord .ok false [a, b]
    _ = 0x02#8 ++ a ++ b ++ 0#8 ++ 0#8 ++ 0#8 := respWord_ok_eq_append (by simp)
    _ = 0x02#8 ++ a ++ b ++ 0#8 ++ 0#16 := BitVec.append_assoc
    _ = 0x02#8 ++ a ++ b ++ 0#24 := BitVec.append_assoc

end Padding

theorem groupValue4_toNat (b0 b1 b2 b3 : Byte) : (groupValue4 b0 b1 b2 b3).toNat =
    b0.toNat * 2 ^ 24 + b1.toNat * 2 ^ 16 + b2.toNat * 2 ^ 8 + b3.toNat :=
  packGroup_toNat b0 b1 b2 b3

theorem groupValue3_toNat (b0 b1 b2 : Byte) :
    (groupValue3 b0 b1 b2).toNat = b0.toNat * 2 ^ 24 + b1.toNat * 2 ^ 16 + b2.toNat * 2 ^ 8 := by
  simp [groupValue3, packGroup_toNat]

theorem groupValue2_toNat (b0 b1 : Byte) : (groupValue2 b0 b1).toNat = b0.toNat * 2 ^ 24 + b1.toNat * 2 ^ 16 := by
  simp [groupValue2, packGroup_toNat]

theorem groupValue1_toNat (b0 : Byte) : (groupValue1 b0).toNat = b0.toNat * 2 ^ 24 := by
  simp [groupValue1, packGroup_toNat]

/-- The zero-group detector, for a full group (40_encoder.md R123). -/
theorem zdet_four_iff (w : BitVec 32) : zdet 4 w = true ↔ w.toNat = 0x00000000 := by
  simp [zdet, BitVec.toNat_eq]

/-- The space-group detector, for a full group (40_encoder.md R124). -/
theorem sdet_four_iff (gs : BitVec 1) (w : BitVec 32) : sdet 4 gs w = true ↔ gs = 1 ∧ w.toNat = 0x20202020 := by
  simp [sdet, BitVec.toNat_eq (x := w)]

/-- Settles O32: the two symbols of the expansion, and three bytes of padding. -/
theorem enc1AnswersTwoSymbols : Obligations.Enc1AnswersTwoSymbols := by
  refine ⟨fun w => decode_enc1_of_and_mask, fun b0 s rom hrom => ?_⟩
  dsimp only
  rw [exec_of_encodes rfl hrom, ← groupValue1_toNat, ← respWord_ok_two]
  rfl

/-- Settles O31: the three symbols of the expansion, and two bytes of padding. -/
theorem enc2AnswersThreeSymbols : Obligations.Enc2AnswersThreeSymbols := by
  refine ⟨fun w => decode_enc2_of_and_mask, fun b0 b1 s rom hrom => ?_⟩
  dsimp only
  rw [exec_of_encodes rfl hrom, ← groupValue2_toNat, ← respWord_ok_three]
  rfl

/-- Settles O30: the four symbols of the expansion, and one byte of padding. -/
theorem enc3AnswersFourSymbols : Obligations.Enc3AnswersFourSymbols := by
  refine ⟨fun w => decode_enc3_of_and_mask, fun b0 b1 b2 s rom hrom => ?_⟩
  dsimp only
  rw [exec_of_encodes rfl hrom, ← groupValue3_toNat, ← respWord_ok_four]
  rfl

/-- Settles O29: the two detectors as conditions on the group value, else the whole expansion. -/
theorem enc4AnswersAShortcutOrFiveSymbols : Obligations.Enc4AnswersAShortcutOrFiveSymbols := by
  refine ⟨fun w => decode_enc4_of_and_mask, fun b0 b1 b2 b3 s rom hrom => ?_⟩
  dsimp only
  rw [exec_of_encodes rfl hrom, ← groupValue4_toNat, ← respWord_ok_five]
  simp only [← zdet_four_iff, ← sdet_four_iff, encodedSymbols]
  split_ifs
  · rfl
  · rfl
  · rfl

end Sys2Proof.Machine
end

section
/-! SUPPORT. Family 41_decoder.md, what DEC and DFL do: the class of DEC's byte, one lemma for each case of the two commands,
and the answers as words (41_decoder.md R151 to R156, R160). -/

namespace Sys2Proof.Machine

/-! ### The class of a byte (41_decoder.md R156) -/

theorem classify_eq_zeroShortcut_iff {rom : Rom} {sym : Byte} : classify rom sym = .zeroShortcut ↔ sym = zSym := by
  unfold classify
  split_ifs with hz hy
  · simp [hz]
  · simp [hz]
  · cases decRom rom sym <;> simp [hz]

theorem classify_eq_spaceShortcut_iff {rom : Rom} {sym : Byte} : classify rom sym = .spaceShortcut ↔ sym = ySym := by
  unfold classify
  split_ifs with hz hy
  · rw [hz]; decide
  · simp [hy]
  · cases decRom rom sym <;> simp [hy]

theorem classify_eq_ignorable_iff {rom : Rom} {sym : Byte} :
    classify rom sym = .ignorable ↔ sym ≠ zSym ∧ sym ≠ ySym ∧ decRom rom sym = none := by
  unfold classify
  split_ifs with hz hy
  · simp [hz]
  · simp [hy]
  · cases decRom rom sym <;> simp [hz, hy]

/-! ### DEC by the class of its byte -/

theorem exec_dec_zSym (s : State) : exec (.dec zSym) s = .next (s.respond .ok false [0x00, 0x00, 0x00, 0x00]) := rfl

theorem exec_dec_ySym (s : State) : exec (.dec ySym) s = .next (s.respond .ok false [0x20, 0x20, 0x20, 0x20]) := rfl

theorem exec_dec_of_digit {s : State} {rom : Rom} {sym : Byte} {d : Fin 85}
    (hrom : romOf Config.build s.tsel = some rom) (h : classify rom sym = .digit d) : exec (.dec sym) s = s.takeDigit d :=
  decOn_of_classify_eq_digit hrom h

theorem exec_dec_of_ignorable {s : State} {rom : Rom} {sym : Byte} (hrom : romOf Config.build s.tsel = some rom)
    (h : classify rom sym = .ignorable) : exec (.dec sym) s = .next (s.respond .ok false []) := by
  obtain ⟨hz, hy, hdec⟩ := classify_eq_ignorable_iff.mp h
  simp only [exec, execDec, decOn, hz, hy, hrom, hdec, if_false]

theorem State.takeDigit_of_open {s : State} (hopen : s.dcnt.toNat < 4) (d : Fin 85) : s.takeDigit d =
    .next ((s.setDigits (s.acc.toNat * 85 + d.val) (s.dcnt.toNat + 1)).respond .ok false []) :=
  if_pos hopen

theorem State.takeDigit_of_four {s : State} (hfour : s.dcnt.toNat = 4) (d : Fin 85) :
    s.takeDigit d = .next (s.closeGroup (s.acc.toNat * 85 + d.val) 4) := by
  rw [State.takeDigit, if_neg (by omega), if_pos hfour]

/-! ### DFL by the digit count -/

theorem exec_dfl_of_dcnt_eq_zero {s : State} (hzero : s.dcnt.toNat = 0) :
    exec .dfl s = .next (s.respond .ok false []).clearDigits :=
  if_pos hzero

theorem exec_dfl_of_dcnt_pos {s : State} (hpos : 1 ≤ s.dcnt.toNat) (hle : s.dcnt.toNat ≤ 4) :
    exec .dfl s = .next (s.closeGroup (paddedValue s.acc.toNat s.dcnt.toNat) (s.dcnt.toNat - 1)) := by
  rw [exec, execDfl, if_neg (by omega), if_pos hle]

/-! ### The digits in their registers (10_state.md R38, R39) -/

theorem mul_85_add_digit_lt {a n : Nat} (d : Fin 85) (h : a < 85 ^ n) : a * 85 + d.val < 85 ^ (n + 1) := by
  have hd := d.isLt
  rw [pow_succ]
  omega

/-- Up to four digits fit ACC, and their count fits DCNT. -/
theorem State.setDigits_toNat (s : State) {a n : Nat} (ha : a < 85 ^ n) (hn : n ≤ 4) :
    (s.setDigits a n).acc.toNat = a ∧ (s.setDigits a n).dcnt.toNat = n := by
  have hpow : 85 ^ n ≤ 85 ^ 4 := Nat.pow_le_pow_right (by decide) hn
  constructor
  · exact (BitVec.toNat_ofNat _ _).trans (Nat.mod_eq_of_lt (by omega))
  · exact (BitVec.toNat_ofNat _ _).trans (Nat.mod_eq_of_lt (by omega))

/-! ### The top bytes of a value as a word (30_encoding.md R86, R89) -/

theorem and_groupMask_toNat (v : BitVec 32) (k : Nat) :
    (v &&& groupMask k).toNat = v.toNat / 2 ^ (8 * (4 - k)) * 2 ^ (8 * (4 - k)) := by
  rw [groupMask, ← BitVec.shiftLeft_ushiftRight, BitVec.toNat_shiftLeft, BitVec.toNat_ushiftRight, Nat.shiftLeft_eq,
    Nat.shiftRight_eq_div_pow]
  exact Nat.mod_eq_of_lt ((Nat.div_mul_le_self _ _).trans_lt v.isLt)

/-- The top `k` bytes of a value, padded, are the value cleared below them. -/
theorem packBytes_bytesOf_toNat (v : BitVec 32) {k : Nat} (hk : k ≤ 4) :
    (packBytes (bytesOf v k)).toNat = v.toNat / 2 ^ (8 * (4 - k)) * 2 ^ (8 * (4 - k)) * 2 ^ 8 := by
  have hv := v.isLt
  have hzero : (0 : Byte).toNat = 0 := rfl
  rw [packBytes_toNat]
  obtain rfl | rfl | rfl | rfl | rfl : k = 0 ∨ k = 1 ∨ k = 2 ∨ k = 3 ∨ k = 4 := by omega
  all_goals
    simp only [bytesOf, List.take, List.getD_cons_zero, List.getD_cons_succ, List.getD_nil, field_toNat, hzero,
      Nat.reduceSub, Nat.reduceMul, Nat.reducePow]
    omega

theorem packBytes_bytesOf (v : BitVec 32) {k : Nat} (hk : k ≤ 4) :
    packBytes (bytesOf v k) = (v &&& groupMask k) ++ 0#8 := by
  apply BitVec.eq_of_toNat_eq
  rw [packBytes_bytesOf_toNat v hk, ← and_groupMask_toNat, append_toNat, BitVec.toNat_zero, Nat.add_zero]

/-- An OK answer of the top `k` bytes of a value, as its fields. -/
theorem respWord_ok_bytesOf (ovf : Bool) (v : BitVec 32) {k : Nat} (hk : k ≤ 4) :
    respWord .ok ovf (bytesOf v k) = 0#4 ++ BitVec.ofBool ovf ++ BitVec.ofNat 3 k ++ (v &&& groupMask k) ++ 0#8 := by
  have hassoc := BitVec.append_assoc (x₁ := 0#4 ++ BitVec.ofBool ovf ++ BitVec.ofNat 3 k) (x₂ := v &&& groupMask k)
    (x₃ := 0#8)
  rw [respWord, bytesOf_length v k hk, packBytes_bytesOf v hk]
  exact hassoc.symm

theorem ofNat_mod_two_pow (w n : Nat) : BitVec.ofNat w (n % 2 ^ w) = BitVec.ofNat w n := by
  apply BitVec.eq_of_toNat_eq
  rw [BitVec.toNat_ofNat, BitVec.toNat_ofNat, Nat.mod_mod]

/-- The answer of a closed group: OVF, the count, and the top `k` bytes (41_decoder.md R154, R160). -/
theorem State.closeGroup_eq (s : State) (v : Nat) {k : Nat} (hk : k ≤ 4) :
    s.closeGroup v k = { s with
      acc := 0
      dcnt := 0
      rq := s.rq ++ [0#4 ++ BitVec.ofBool (decide (2 ^ 32 ≤ v)) ++ BitVec.ofNat 3 k ++
        (BitVec.ofNat 32 (v % 2 ^ 32) &&& groupMask k) ++ 0#8] } := by
  rw [ofNat_mod_two_pow, ← respWord_ok_bytesOf _ _ hk]
  rfl

/-! ### The padding of a tail (41_decoder.md R160) -/

/-- Appending a digit 84 `m` times. -/
theorem iterate_pad (m a : Nat) : (fun v => v * 85 + 84)^[m] a = a * 85 ^ m + (85 ^ m - 1) := by
  induction m with
  | zero => simp
  | succ m ih =>
    have hpos : 1 ≤ 85 ^ m := Nat.one_le_pow _ _ (by decide)
    rw [Function.iterate_succ_apply', ih, pow_succ, ← mul_assoc]
    omega

end Sys2Proof.Machine
end

section
/-! SUPPORT. Family 41_decoder.md, the statements about one DEC or DFL (41_decoder.md R150 to R157, R160, R161, R165). -/

namespace Sys2Proof.Machine

/-- Settles O36: both shortcuts answer before any register is read. -/
theorem decShortcutsAnswerFourBytesAtOnce : Obligations.DecShortcutsAnswerFourBytesAtOnce := by
  intro s
  exact ⟨exec_dec_zSym s, exec_dec_ySym s⟩

/-- Settles O37: the digit is appended to ACC and the count goes up, both within their registers. -/
theorem decTakesADigit : Obligations.DecTakesADigit := by
  intro s rom sym d hrom hz hy hdec hopen hacc
  have hdigit : classify rom sym = .digit d := classify_eq_digit_iff.mpr ⟨hz, hy, hdec⟩
  have hbound := mul_85_add_digit_lt d hacc
  obtain ⟨hnew, hcount⟩ := s.setDigits_toNat hbound hopen
  exact ⟨_, (exec_dec_of_digit hrom hdigit).trans (State.takeDigit_of_open hopen d), rfl, hnew, hcount,
    hnew.trans_lt hbound⟩

/-- Settles O38: the fifth digit closes the group with all four bytes. -/
theorem decCompletesAGroup : Obligations.DecCompletesAGroup := by
  intro s rom sym d hrom hz hy hdec hfour hacc V answer
  have hdigit : classify rom sym = .digit d := classify_eq_digit_iff.mpr ⟨hz, hy, hdec⟩
  have hV : V < 85 ^ 5 := mul_85_add_digit_lt d hacc
  have hfront : 0#4 ++ BitVec.ofBool (decide (2 ^ 32 ≤ V)) ++ BitVec.ofNat 3 4 =
      if 2 ^ 32 ≤ V then 0x0C#8 else 0x04#8 := by
    split_ifs with hovf
    · rw [decide_eq_true hovf]; rfl
    · rw [decide_eq_false hovf]; rfl
  refine ⟨by omega, ?_⟩
  rw [exec_dec_of_digit hrom hdigit, State.takeDigit_of_four (congrArg BitVec.toNat hfour),
    State.closeGroup_eq _ _ le_rfl, hfront, show groupMask 4 = BitVec.allOnes 32 from rfl, BitVec.and_allOnes]

/-- Settles O39: an absent byte is classed as ignorable. -/
theorem decIgnoresAnAbsentByte : Obligations.DecIgnoresAnAbsentByte := by
  intro s rom sym hrom hz hy hdec
  exact exec_dec_of_ignorable hrom (classify_eq_ignorable_iff.mpr ⟨hz, hy, hdec⟩)

theorem decode_dec_of_and_mask {w : CommandWord} (h : w &&& 0xF000000000 = 0x2000000000) :
    decode w = .ok (.dec (w.extractLsb' 0 8)) := by
  obtain ⟨sym, hsym⟩ := (and_mask_eq_dec_iff w).mp h
  obtain ⟨-, rfl⟩ := decode_eq_ok_iff_spells.mp hsym
  rwa [dataField_byte] at hsym

/-- Settles O40: the four classes by what decides them, and one lemma about DEC for each. -/
theorem decFollowsThePriorityOrder : Obligations.DecFollowsThePriorityOrder := by
  refine ⟨fun w => decode_dec_of_and_mask, fun s rom sym hrom => ⟨classify_eq_zeroShortcut_iff,
    classify_eq_spaceShortcut_iff, fun d => ?_, ?_, ?_⟩⟩
  · rw [← decRom_eq_some_iff (romOf_distinct hrom)]
    exact classify_eq_digit_iff
  · rw [← decRom_eq_none_iff]
    exact classify_eq_ignorable_iff
  · cases hclass : classify rom sym with
    | zeroShortcut => rw [classify_eq_zeroShortcut_iff.mp hclass, exec_dec_zSym]
    | spaceShortcut => rw [classify_eq_spaceShortcut_iff.mp hclass, exec_dec_ySym]
    | digit d => exact exec_dec_of_digit hrom hclass
    | ignorable => exact exec_dec_of_ignorable hrom hclass

/-- DEC of a shortcut byte adds one response of four bytes. -/
theorem exec_dec_shortcut {short : Byte} (h : short = zSym ∨ short = ySym) (s : State) :
    ∃ seq, seq.length = 4 ∧ exec (.dec short) s = .next (s.respond .ok false seq) := by
  obtain rfl | rfl := h
  · exact ⟨_, rfl, exec_dec_zSym s⟩
  · exact ⟨_, rfl, exec_dec_ySym s⟩

/-- Settles O41: a shortcut keeps the registers a DEC reads, so the next DEC answers the same behind one more response. -/
theorem shortcutInsideAGroupKeepsThePendingDigits : Obligations.ShortcutInsideAGroupKeepsThePendingDigits := by
  intro s u short sym hshort hexec
  obtain ⟨seq, hlen, hfirst⟩ := exec_dec_shortcut hshort s
  obtain ⟨r, hu, hsecond⟩ := exec_next_congr (s := s) (u := s.respond .ok false seq) rfl hexec
  refine ⟨_, _, respWord .ok false seq, r, hfirst, rfl, rfl, hsecond, rfl, rfl, congrArg State.rq hu, ?_, ?_⟩
  · exact List.append_assoc _ _ _
  · rw [cntOf_respWord, hlen]

/-- Settles O42: DFL closes the group with the padded value, or answers nothing. -/
theorem dflFlushesThePartialGroup : Obligations.DflFlushesThePartialGroup := by
  refine ⟨fun w => (and_mask_eq_dfl_iff w).mp, fun s hzero => ?_, fun s hpos hle hacc => ?_⟩
  · exact exec_dfl_of_dcnt_eq_zero (congrArg BitVec.toNat hzero)
  · intro n V answer
    refine ⟨(iterate_pad _ _).symm, fun hn => ?_, ?_⟩
    · have hone : s.acc.toNat < 85 ^ 1 := hn ▸ hacc
      simp only [V, hn]
      omega
    · rw [exec_dfl_of_dcnt_pos hpos hle]
      exact congrArg Host.Outcome.next (s.closeGroup_eq V (by omega))

theorem State.setCfg_fields (s : State) (c : BitVec 3) :
    s.setCfg (c.extractLsb' 1 2) (c.extractLsb' 0 1) = { s with cfg := c } := by
  rw [State.setCfg, cfgWord_of_fields]

/-- Settles O43: CFG touches neither ACC nor DCNT, so the next digit joins those pending; DFL commutes with a write of
CFG. -/
theorem cfgInMidGroupChangesLaterDigitsOnly : Obligations.CfgInMidGroupChangesLaterDigitsOnly := by
  refine ⟨fun s ts gs rom sym d hrom hz hy hdec hopen hacc => ?_, fun s t c hexec => ?_⟩
  · have himage : tselExists Config.build ts = true := by rw [← romOf_isSome, hrom]; rfl
    have hcfg : exec (.cfg ts gs) s = .next ((s.setCfg ts gs).respond .ok false []) :=
      congrArg Host.Outcome.next (if_pos himage)
    obtain ⟨u, hdecoded, -, hnew, hcount, -⟩ := decTakesADigit ((s.setCfg ts gs).respond .ok false []) rom sym d
      (by rwa [State.respond_tsel, State.setCfg_tsel]) hz hy hdec hopen hacc
    exact ⟨_, u, hcfg, rfl, rfl, hdecoded, hnew, hcount⟩
  · have h := execDfl_setCfg s (c.extractLsb' 1 2) (c.extractLsb' 0 1)
    rw [State.setCfg_fields, show execDfl s = .next t from hexec] at h
    exact h.trans (congrArg Host.Outcome.next (t.setCfg_fields c))

end Sys2Proof.Machine
end

section
/-! SUPPORT. Family 41_decoder.md, commands one after the other, and the decoder on a group's digits: the digits pile up in
ACC, and the group's last command answers all its bytes at once (41_decoder.md R153, R154, R160). -/

namespace Sys2Proof.Machine

theorem execAll_cons {i : Instr} {s t : State} (h : exec i s = .next t) (is : List Instr) :
    execAll (i :: is) s = execAll is t := by
  rw [execAll, h]

/-- A command list that answers does so from the first command on. -/
theorem exists_of_execAll_cons {i : Instr} {is : List Instr} {s v : State} (h : execAll (i :: is) s = .next v) :
    ∃ t, exec i s = .next t ∧ execAll is t = .next v := by
  rw [execAll] at h
  cases hexec : exec i s with
  | next t => rw [hexec] at h; exact ⟨t, rfl, h⟩
  | fault r => rw [hexec] at h; cases h
  | refused r => rw [hexec] at h; cases h

theorem execAll_append {is : List Instr} {s t : State} (h : execAll is s = .next t) (js : List Instr) :
    execAll (is ++ js) s = execAll js t := by
  induction is generalizing s with
  | nil => cases h; rfl
  | cons i is ih =>
    obtain ⟨u, hexec, hrest⟩ := exists_of_execAll_cons h
    exact (execAll_cons hexec _).trans (ih hrest)

@[simp] theorem collect_append (rs qs : List ResponseWord) : collect (rs ++ qs) = collect rs ++ collect qs :=
  List.flatMap_append

@[simp] theorem collect_singleton (r : ResponseWord) : collect [r] = dataBytes r := List.flatMap_singleton ..

/-- The value in ACC once the digits `ds` are appended to `a` (41_decoder.md R153). -/
def appendDigits (a : Nat) (ds : List (Fin 85)) : Nat := ds.foldl (fun v d => v * 85 + d.val) a

/-- The answers to digits that complete no group. -/
def pendingAnswers (n : Nat) : List ResponseWord := List.replicate n (respWord .ok false [])

theorem ovfOf_of_mem_pendingAnswers {n : Nat} {q : ResponseWord} (h : q ∈ pendingAnswers n) : ovfOf q = false := by
  rw [List.eq_of_mem_replicate h, ovfOf_respWord]

@[simp] theorem collect_pendingAnswers (n : Nat) : collect (pendingAnswers n) = [] := by
  rw [collect, List.flatMap_eq_nil_iff]
  intro q hq
  rw [List.eq_of_mem_replicate hq, dataBytes_respWord _ _ [] (Nat.zero_le 5)]

/-- DEC of the symbols of up to four digits in all appends them to ACC and answers nothing. -/
theorem execAll_decs_pending {rom : Rom} {ds : List (Fin 85)} (hdigits : ∀ d ∈ ds, classify rom (encRom rom d) = .digit d)
    {s : State} (hrom : romOf Config.build s.tsel = some rom) (hacc : s.acc.toNat < 85 ^ s.dcnt.toNat)
    (hle : s.dcnt.toNat + ds.length ≤ 4) :
    ∃ v, execAll (decsInstrs (ds.map (encRom rom))) s = .next v ∧ v.cfg = s.cfg ∧
      v.acc.toNat = appendDigits s.acc.toNat ds ∧ v.dcnt.toNat = s.dcnt.toNat + ds.length ∧
      v.rq = s.rq ++ pendingAnswers ds.length := by
  induction ds generalizing s with
  | nil => exact ⟨s, rfl, rfl, rfl, rfl, (List.append_nil _).symm⟩
  | cons d ds ih =>
    rw [List.length_cons] at hle
    have hbound := mul_85_add_digit_lt d hacc
    obtain ⟨hnew, hcount⟩ := s.setDigits_toNat hbound (by omega)
    have hexec := (exec_dec_of_digit hrom (hdigits d List.mem_cons_self)).trans (State.takeDigit_of_open (by omega) d)
    obtain ⟨v, hv, hcfg, hvacc, hvdcnt, hvrq⟩ := ih (fun e he => hdigits e (List.mem_cons_of_mem d he))
      (s := (s.setDigits (s.acc.toNat * 85 + d.val) (s.dcnt.toNat + 1)).respond .ok false []) hrom
      (by rwa [State.respond_acc, State.respond_dcnt, hnew, hcount]) (by rw [State.respond_dcnt, hcount]; omega)
    rw [State.respond_acc, hnew] at hvacc
    rw [State.respond_dcnt, hcount] at hvdcnt
    refine ⟨v, (execAll_cons hexec _).trans hv, hcfg, hvacc, by rw [hvdcnt, List.length_cons]; omega, ?_⟩
    rw [hvrq, State.respond_rq, List.append_assoc]
    rfl

/-- The commands the host issues for a group of `n` bytes: DEC for each symbol, and DFL where the group is not full
(41_decoder.md R163). -/
def groupCommands (n : Nat) (text : List Byte) : List Instr := if n < 4 then decmInstrs text else decsInstrs text

/-- A group of `n + 1` digits is closed with the padded value of its digits; five digits take no padding. -/
theorem execAll_groupCommands {rom : Rom} {ds : List (Fin 85)} {n : Nat} (hn : 1 ≤ n) (hn4 : n ≤ 4)
    (hlen : ds.length = n + 1) (hdigits : ∀ d ∈ ds, classify rom (encRom rom d) = .digit d) {s : State}
    (hrom : romOf Config.build s.tsel = some rom) (hacc : s.acc.toNat = 0) (hdcnt : s.dcnt.toNat = 0) :
    ∃ (v : State) (m : Nat), execAll (groupCommands n (ds.map (encRom rom))) s =
        .next (v.closeGroup (paddedValue (appendDigits 0 ds) (n + 1)) n) ∧ v.cfg = s.cfg ∧
      v.rq = s.rq ++ pendingAnswers m := by
  have hbound : s.acc.toNat < 85 ^ s.dcnt.toNat := by rw [hacc, hdcnt]; decide
  unfold groupCommands
  split_ifs with htail
  · obtain ⟨v, hv, hcfg, hvacc, hvdcnt, hvrq⟩ := execAll_decs_pending hdigits hrom hbound (by omega)
    rw [hdcnt, Nat.zero_add, hlen] at hvdcnt
    refine ⟨v, _, ?_, hcfg, hvrq⟩
    rw [decmInstrs, execAll_append hv, execAll_cons (exec_dfl_of_dcnt_pos (by omega) (by omega)), hvacc, hacc, hvdcnt]
    rfl
  · obtain rfl : n = 4 := by omega
    obtain ⟨ds, d, rfl⟩ := (List.eq_nil_or_concat' ds).resolve_left (by rintro rfl; cases hlen)
    rw [List.length_append, List.length_singleton] at hlen
    obtain ⟨v, hv, hcfg, hvacc, hvdcnt, hvrq⟩ := execAll_decs_pending
      (fun e he => hdigits e (List.mem_append_left _ he)) hrom hbound (by omega)
    have hvrom : romOf Config.build v.tsel = some rom := by rwa [State.tsel, hcfg]
    have hlast := (exec_dec_of_digit hvrom (hdigits d (by simp))).trans (State.takeDigit_of_four (by omega) d)
    refine ⟨v, _, ?_, hcfg, hvrq⟩
    rw [decsInstrs, List.map_append, List.map_append, ← decsInstrs, execAll_append hv]
    refine (execAll_cons hlast []).trans ?_
    rw [hvacc, hacc, appendDigits, appendDigits, List.foldl_append, paddedValue]
    simp [execAll]

/-! ### The digits of a group give its bytes back (41_decoder.md R163) -/

/-- The value of a group of up to four bytes, the missing bytes zero (40_encoder.md R121). -/
def groupWord (group : List Byte) : BitVec 32 :=
  packGroup (group.getD 0 0) (group.getD 1 0) (group.getD 2 0) (group.getD 3 0)

theorem bytesOf_groupWord {group : List Byte} (h : group.length ≤ 4) : bytesOf (groupWord group) group.length = group := by
  rw [groupWord, bytesOf_packGroup]
  match group, h with
  | [], _ => rfl
  | [_], _ => rfl
  | [_, _], _ => rfl
  | [_, _, _], _ => rfl
  | [_, _, _, _], _ => rfl

theorem groupWord_toNat_mod {group : List Byte} (h : group.length ≤ 4) :
    (groupWord group).toNat % 2 ^ (8 * (4 - group.length)) = 0 := by
  match group, h with
  | [], _ => rfl
  | [b0], _ =>
    change (groupValue1 b0).toNat % 2 ^ 24 = 0
    rw [groupValue1_toNat]
    omega
  | [b0, b1], _ =>
    change (groupValue2 b0 b1).toNat % 2 ^ 16 = 0
    rw [groupValue2_toNat]
    omega
  | [b0, b1, b2], _ =>
    change (groupValue3 b0 b1 b2).toNat % 2 ^ 8 = 0
    rw [groupValue3_toNat]
    omega
  | [_, _, _, _], _ => exact Nat.mod_one _

/-- The first `k` digits of a value, put together, are the value without its last `5 - k` digits. -/
theorem appendDigits_take_digits5 (w : BitVec 32) {k : Nat} (hk : k ≤ 5) :
    appendDigits 0 ((digits5 w).take k) = w.toNat / 85 ^ (5 - k) := by
  have hw := w.isLt
  obtain rfl | rfl | rfl | rfl | rfl | rfl : k = 0 ∨ k = 1 ∨ k = 2 ∨ k = 3 ∨ k = 4 ∨ k = 5 := by omega
  all_goals
    simp only [appendDigits, digits5, List.take, List.foldl, digit_val, Nat.reduceSub, Nat.reducePow]
    omega

/-- The digits a group of `n` bytes is written with, padded, are a value with the group's `n` top bytes: the padding adds
less than `85 ^ (4 - n)`, which is at most `256 ^ (4 - n)`. -/
theorem paddedValue_digits {w : BitVec 32} {n : Nat} (hn : 1 ≤ n) (hn4 : n ≤ 4)
    (hlow : w.toNat % 2 ^ (8 * (4 - n)) = 0) :
    paddedValue (appendDigits 0 ((digits5 w).take (n + 1))) (n + 1) < 2 ^ 32 ∧
    paddedValue (appendDigits 0 ((digits5 w).take (n + 1))) (n + 1) / 2 ^ (8 * (4 - n)) =
      w.toNat / 2 ^ (8 * (4 - n)) := by
  have hw := w.isLt
  rw [appendDigits_take_digits5 w (by omega), paddedValue]
  obtain rfl | rfl | rfl | rfl : n = 1 ∨ n = 2 ∨ n = 3 ∨ n = 4 := by omega
  all_goals
    simp only [Nat.reduceSub, Nat.reduceAdd, Nat.reduceMul, Nat.reducePow] at hlow ⊢
    omega

/-- The `k` top bytes of a value depend on its top `8 * k` bits alone. -/
theorem bytesOf_congr {v w : BitVec 32} {k : Nat} (hk : k ≤ 4)
    (h : v.toNat / 2 ^ (8 * (4 - k)) = w.toNat / 2 ^ (8 * (4 - k))) : bytesOf v k = bytesOf w k := by
  have hmasked : v &&& groupMask k = w &&& groupMask k := by
    apply BitVec.eq_of_toNat_eq
    rw [and_groupMask_toNat, and_groupMask_toNat, h]
  have hword : respWord .ok false (bytesOf v k) = respWord .ok false (bytesOf w k) := by
    rw [respWord_ok_bytesOf _ _ hk, respWord_ok_bytesOf _ _ hk, hmasked]
  have hlen (x : BitVec 32) : (bytesOf x k).length ≤ 5 := by rw [bytesOf_length x k hk]; omega
  rw [← dataBytes_respWord .ok false _ (hlen v), hword, dataBytes_respWord .ok false _ (hlen w)]

/-! ### The symbols of a group -/

theorem bytes_of_groupValue4_eq {b0 b1 b2 b3 : Byte} {w : BitVec 32} (h : groupValue4 b0 b1 b2 b3 = w) :
    [b0, b1, b2, b3] = bytesOf w 4 := by
  rw [← h, groupValue4, bytesOf_packGroup, List.take_of_length_le (by simp)]

/-- A group of one to four bytes is encoded to its expansion, or is one of the two shortcut groups. -/
theorem encodedSymbols_of_encInstr {group : List Byte} {i : Instr} (h : encInstr group = some i) (rom : Rom)
    (gs : BitVec 1) :
    encodedSymbols rom gs i = expansion rom (groupWord group) (group.length + 1) ∨
    (encodedSymbols rom gs i = [zSym] ∧ group = [0x00, 0x00, 0x00, 0x00]) ∨
    (encodedSymbols rom gs i = [ySym] ∧ group = [0x20, 0x20, 0x20, 0x20]) := by
  unfold encInstr at h
  split at h <;> cases h
  · exact .inl rfl
  · exact .inl rfl
  · exact .inl rfl
  · simp only [encodedSymbols]
    split_ifs with hz hy
    · have hzero := (zdet_four_iff _).mp hz
      exact .inr (.inl ⟨rfl, bytes_of_groupValue4_eq (w := 0x00000000) (BitVec.eq_of_toNat_eq hzero)⟩)
    · obtain ⟨-, hspace⟩ := (sdet_four_iff _ _).mp hy
      exact .inr (.inr ⟨rfl, bytes_of_groupValue4_eq (w := 0x20202020) (BitVec.eq_of_toNat_eq hspace)⟩)
    · exact .inl rfl

theorem encInstr_length {group : List Byte} {i : Instr} (h : encInstr group = some i) :
    1 ≤ group.length ∧ group.length ≤ 4 := by
  unfold encInstr at h
  split at h <;> cases h <;> simp

theorem encodes_of_encInstr {group : List Byte} {i : Instr} (h : encInstr group = some i) : encodes i = true := by
  unfold encInstr at h
  split at h <;> cases h <;> rfl

theorem expansion_length (rom : Rom) (w : BitVec 32) {k : Nat} (hk : k ≤ 5) : (expansion rom w k).length = k := by
  simp [expansion, digits5, hk]

/-- No shortcut byte among the symbols: DEC takes each for the digit it stands for. -/
theorem classify_encRom_of_notMem {rom : Rom} (hrom : rom.distinct = true) {ds : List (Fin 85)}
    (hz : zSym ∉ ds.map (encRom rom)) (hy : ySym ∉ ds.map (encRom rom)) :
    ∀ d ∈ ds, classify rom (encRom rom d) = .digit d := by
  intro d hd
  have hmem := List.mem_map_of_mem (f := encRom rom) hd
  exact classify_eq_digit_iff.mpr ⟨ne_of_mem_of_not_mem hmem hz, ne_of_mem_of_not_mem hmem hy, decRom_encRom hrom d⟩

/-- An ENC command answers its symbols, in any table that exists. -/
theorem dataBytes_of_encInstr {group : List Byte} {i : Instr} {s t : State} {r : ResponseWord} {rom : Rom}
    (hgroup : encInstr group = some i) (hrom : romOf Config.build s.tsel = some rom) (hexec : exec i s = .next t)
    (hrq : t.rq = s.rq ++ [r]) : dataBytes r = encodedSymbols rom s.gs i := by
  rw [exec_of_encodes (encodes_of_encInstr hgroup) hrom] at hexec
  cases hexec
  obtain rfl : respWord .ok false (encodedSymbols rom s.gs i) = r := by simpa using hrq
  apply dataBytes_respWord
  obtain ⟨-, hlen⟩ := encInstr_length hgroup
  obtain h | ⟨h, -⟩ | ⟨h, -⟩ := encodedSymbols_of_encInstr hgroup rom s.gs
  · rw [h, expansion_length _ _ (by omega)]; omega
  · rw [h]; decide
  · rw [h]; decide

/-- The symbols of a group, where none is a shortcut byte, decode back to the group from any state with no digit pending
(41_decoder.md R163). -/
theorem execAll_groupCommands_expansion {group : List Byte} (hn : 1 ≤ group.length) (hn4 : group.length ≤ 4) {rom : Rom}
    (hz : zSym ∉ expansion rom (groupWord group) (group.length + 1))
    (hy : ySym ∉ expansion rom (groupWord group) (group.length + 1)) {s : State}
    (hrom : romOf Config.build s.tsel = some rom) (hacc : s.acc.toNat = 0) (hdcnt : s.dcnt.toNat = 0) :
    ∃ v rs, execAll (groupCommands group.length (expansion rom (groupWord group) (group.length + 1))) s = .next v ∧
      v.rq = s.rq ++ rs ∧ collect rs = group ∧ (∀ q ∈ rs, ovfOf q = false) ∧ v.cfg = s.cfg ∧ v.acc = 0 ∧ v.dcnt = 0 := by
  have hdigits := classify_encRom_of_notMem (romOf_distinct hrom) hz hy
  obtain ⟨v, m, hexec, hcfg, hrq⟩ := execAll_groupCommands hn hn4
    (by simp only [List.length_take, digits5, List.length_cons, List.length_nil]; omega) hdigits hrom hacc hdcnt
  obtain ⟨hfits, htop⟩ := paddedValue_digits hn hn4 (groupWord_toNat_mod hn4)
  generalize paddedValue _ _ = V at hexec hfits htop
  have hbytes : bytesOf (BitVec.ofNat 32 V) group.length = group := by
    have hsame : (BitVec.ofNat 32 V).toNat / 2 ^ (8 * (4 - group.length)) =
        (groupWord group).toNat / 2 ^ (8 * (4 - group.length)) := by
      rw [BitVec.toNat_ofNat, Nat.mod_eq_of_lt hfits, htop]
    rw [bytesOf_congr hn4 hsame, bytesOf_groupWord hn4]
  have hovf : overflow V = false := decide_eq_false (Nat.not_le.mpr hfits)
  refine ⟨_, pendingAnswers m ++ [respWord .ok (overflow V) (bytesOf (BitVec.ofNat 32 V) group.length)], hexec, ?_, ?_, ?_,
    hcfg, rfl, rfl⟩
  · rw [← List.append_assoc, ← hrq]
    rfl
  · rw [collect_append, collect_pendingAnswers, collect_singleton, hbytes, dataBytes_respWord _ _ _ (by omega)]
    rfl
  · intro q hq
    obtain hq | hq := List.mem_append.mp hq
    · exact ovfOf_of_mem_pendingAnswers hq
    · rw [List.mem_singleton.mp hq, ovfOf_respWord, hovf]

/-- With no digit pending ACC is 0 (10_state.md R38). -/
theorem Inv.acc_eq_zero {b : Build} {s : State} (h : Inv b s) (hdcnt : s.dcnt.toNat = 0) : s.acc.toNat = 0 := by
  have hacc := h.acc
  rw [hdcnt] at hacc
  exact Nat.lt_one_iff.mp hacc

/-- Settles O44: an expansion decodes back digit by digit, and each shortcut through its own case of DEC. -/
theorem groupDecodesBackToItsBytes : Obligations.GroupDecodesBackToItsBytes := by
  intro group i s t u r hgroup hexec hrq hinv hdcnt htsel
  obtain ⟨hn, hn4⟩ := encInstr_length hgroup
  obtain ⟨rom, hrom⟩ := exists_romOf hinv.tsel
  have hdcnt0 : u.dcnt.toNat = 0 := congrArg BitVec.toNat hdcnt
  have hacc0 := hinv.acc_eq_zero hdcnt0
  rw [dataBytes_of_encInstr hgroup (htsel ▸ hrom) hexec hrq]
  obtain h | ⟨h, rfl⟩ | ⟨h, rfl⟩ := encodedSymbols_of_encInstr hgroup rom s.gs
  · rw [h]
    refine ⟨fun hy hz => ?_, fun hshort => ?_⟩
    · obtain ⟨v, rs, hexec, hvrq, hcollect, hovf, -, hvacc, hvdcnt⟩ :=
        execAll_groupCommands_expansion hn hn4 hz hy hrom hacc0 hdcnt0
      exact ⟨v, rs, hexec, hvrq, hcollect, hovf, hvacc, hvdcnt⟩
    · have hlen := expansion_length rom (groupWord group) (k := group.length + 1) (by omega)
      obtain hshort | hshort := hshort
      · rw [hshort, List.length_singleton] at hlen; omega
      · rw [hshort, List.length_singleton] at hlen; omega
  · rw [h]
    exact ⟨fun _ hz => absurd (List.mem_singleton_self _) hz, fun _ =>
      ⟨_, _, execAll_cons (exec_dec_zSym u) [], rfl, dataBytes_respWord _ _ _ (by decide)⟩⟩
  · rw [h]
    exact ⟨fun hy => absurd (List.mem_singleton_self _) hy, fun _ =>
      ⟨_, _, execAll_cons (exec_dec_ySym u) [], rfl, dataBytes_respWord _ _ _ (by decide)⟩⟩

end Sys2Proof.Machine
end

section
/-! SUPPORT. A host's session at the ports: what the host gets and the state it leaves are those of the commands executed one
after the other (47_host_sequences.md R200, 70_reset_and_hazards.md R264, R271). -/

namespace Sys2Proof.Machine

/-- The frame of `s` around the registers of `t` after a session: the host has taken the responses of `t`. -/
def State.deliver (s t : State) : State :=
  { s with cfg := t.cfg, acc := t.acc, dcnt := t.dcnt, rq := [], pins := [], taken := s.taken ++ t.rq }

@[simp] theorem State.deliver_tsel (s t : State) : (s.deliver t).tsel = t.tsel := rfl
@[simp] theorem State.deliver_acc (s t : State) : (s.deliver t).acc = t.acc := rfl
@[simp] theorem State.deliver_dcnt (s t : State) : (s.deliver t).dcnt = t.dcnt := rfl
@[simp] theorem State.deliver_rq (s t : State) : (s.deliver t).rq = [] := rfl

theorem State.graft_graft (s t v : State) : (s.graft t).graft v = s.graft (t.graft v) := by
  simp only [State.graft, List.append_assoc]

@[simp] theorem State.graft_bare_self (s : State) : s.graft s.bare = s := by
  simp only [State.graft, State.bare, List.append_nil]

@[simp] theorem State.bare_graft (s t : State) : (s.graft t).bare = t.bare := rfl

/-- Commands that answer in `s` answer with the same responses and registers in any state of the same CFG, ACC and
DCNT. -/
theorem execAll_next_congr {is : List Instr} {s u v : State} (hbare : u.bare = s.bare) (h : execAll is s = .next v) :
    ∃ w, v = s.graft w ∧ execAll is u = .next (u.graft w) := by
  induction is generalizing s u with
  | nil =>
    cases h
    refine ⟨v.bare, v.graft_bare_self.symm, ?_⟩
    rw [← hbare, State.graft_bare_self]
    rfl
  | cons i is ih =>
    obtain ⟨t, hexec, hrest⟩ := exists_of_execAll_cons h
    obtain ⟨t', ht', rfl⟩ := mapNext_eq_next ((exec_eq_graft i s).symm.trans hexec)
    have hexec' : exec i u = .next (u.graft t') := by rw [exec_eq_graft, hbare, ht']; rfl
    obtain ⟨w, rfl, hw⟩ := ih (s := s.graft t') (u := u.graft t') rfl hrest
    refine ⟨t'.graft w, s.graft_graft t' w, ?_⟩
    rw [execAll_cons hexec', hw, State.graft_graft]

theorem runSteps_succ {s t : State} (h : step s = .next t) (k : Nat) : runSteps (k + 1) s = runSteps k t := by
  rw [runSteps, h]

/-- The edge at which the host presents a command to an empty RQ and takes no response. -/
theorem step_presentEdge {s : State} {i : Instr} {later : List PortEdge} (hlive : s.phase = .live) (hrq : s.rq = [])
    (hpins : s.pins = presentEdge (encode i) :: later) : step s = exec i { s with pins := later } := by
  have haccepted : accepted Config.build (presentEdge (encode i)) { s with pins := later } = some (encode i) := by
    simp [accepted, cmdReady, presentEdge, hrq, hasRoom]
  have hserved (u : State) : u.serveResponse (presentEdge (encode i)).rspReady = u := u.serveResponse_eq _
  simp only [step_eq_liveEdge hlive hpins rfl, liveEdge, haccepted, runWord, decode_encode, hserved]

/-- The edge at which the host takes the one response in RQ. -/
theorem step_takeEdge {s : State} {r : ResponseWord} {later : List PortEdge} (hlive : s.phase = .live)
    (hrq : s.rq = [r]) (hpins : s.pins = takeEdge :: later) :
    step s = .next { s with pins := later, rq := [], taken := s.taken ++ [r] } := by
  have haccepted : accepted Config.build takeEdge { s with pins := later } = none := by
    unfold accepted
    split <;> rfl
  rw [step_eq_liveEdge hlive hpins rfl, liveEdge, haccepted, State.serveResponse_eq, hrq]
  rfl

/-- A session whose commands all answer: each response is taken before the next command. -/
theorem runSteps_session {is : List Instr} {s v : State} (hlive : s.phase = .live) (hrq : s.rq = [])
    (h : execAll is s = .next v) :
    runSteps (2 * is.length) { s with pins := session is } = .next (s.deliver v) := by
  induction is generalizing s v with
  | nil =>
    cases h
    simp only [State.deliver, hrq, List.append_nil]
    rfl
  | cons i is ih =>
    obtain ⟨t, hexec, hrest⟩ := exists_of_execAll_cons h
    obtain ⟨r, ht, hpresent⟩ := exec_next_congr (s := s) (u := { s with pins := takeEdge :: session is }) rfl hexec
    have htrq : t.rq = [r] := by rw [ht, State.answered, hrq, List.nil_append]
    have hedge := (step_presentEdge (s := { s with pins := session (i :: is) }) hlive hrq rfl).trans hpresent
    have htake : step (State.answered { s with pins := takeEdge :: session is } t.cfg t.acc t.dcnt r) =
        .next { s.deliver t with pins := session is } := by
      rw [State.deliver, htrq]
      exact step_takeEdge hlive (congrArg (· ++ [r]) hrq) rfl
    obtain ⟨w, rfl, hw⟩ := execAll_next_congr (s := t) (u := s.deliver t) rfl hrest
    refine (runSteps_succ hedge _).trans ((runSteps_succ htake _).trans ((ih (s := s.deliver t) hlive rfl hw).trans ?_))
    simp only [State.deliver, State.graft, List.nil_append, List.append_assoc]

theorem issue_of_execAll {is : List Instr} {s v : State} (hlive : s.phase = .live) (hrq : s.rq = [])
    (h : execAll is s = .next v) : issue is s = .done (collect v.rq) (s.deliver v) := by
  have hrun : runSession is s = .next (s.deliver v) := runSteps_session hlive hrq h
  rw [issue, hrun]
  simp [State.deliver]

end Sys2Proof.Machine
end

section
/-! SUPPORT. Family 41_decoder.md, the length of what a text decodes to (41_decoder.md R162). -/

namespace Sys2Proof.Machine

/-- The digit bytes of a table (41_decoder.md R153). -/
def isDigitByte (rom : Rom) (c : Byte) : Bool := decide (c ≠ 0x7A ∧ c ≠ 0x79 ∧ decRom rom c ≠ none)

/-- The shortcut bytes (41_decoder.md R151, R152). -/
def isShortcutByte (c : Byte) : Bool := decide (c = 0x7A ∨ c = 0x79)

/-- `o` is a next state that keeps CFG, with `n` digits pending and `k` bytes more for the host. -/
def Yields (s : State) (o : Host.Outcome State Fault Refusal) (n k : Nat) : Prop :=
  ∃ t rs, o = .next t ∧ t.cfg = s.cfg ∧ t.dcnt.toNat = n ∧ t.rq = s.rq ++ rs ∧ (collect rs).length = k

theorem yields_next {s t : State} {ovf : Bool} {seq : List Byte} {n k : Nat} (hcfg : t.cfg = s.cfg)
    (hdcnt : t.dcnt.toNat = n) (hrq : t.rq = s.rq ++ [respWord .ok ovf seq]) (hlen : seq.length = k)
    (hfits : seq.length ≤ 5 := by decide) : Yields s (.next t) n k :=
  ⟨t, _, rfl, hcfg, hdcnt, hrq, by rw [collect_singleton, dataBytes_respWord _ _ _ hfits, hlen]⟩

/-- Commands that answer, then commands that answer. -/
theorem Yields.append {is js : List Instr} {s : State} {n m k l total : Nat} (h : Yields s (execAll is s) n k)
    (hrest : ∀ t : State, t.cfg = s.cfg → t.dcnt.toNat = n → Yields t (execAll js t) m l) (htotal : k + l = total) :
    Yields s (execAll (is ++ js) s) m total := by
  obtain ⟨t, rs, ht, hcfg, hdcnt, hrq, hlen⟩ := h
  obtain ⟨v, qs, hv, hvcfg, hvdcnt, hvrq, hvlen⟩ := hrest t hcfg hdcnt
  refine ⟨v, rs ++ qs, (execAll_append ht js).trans hv, hvcfg.trans hcfg, hvdcnt, ?_, ?_⟩
  · rw [hvrq, hrq, List.append_assoc]
  · rw [collect_append, List.length_append, hlen, hvlen, htotal]

theorem Yields.singleton {i : Instr} {s : State} {n k : Nat} (h : Yields s (exec i s) n k) :
    Yields s (execAll [i] s) n k := by
  obtain ⟨t, rs, ht, hrest⟩ := h
  exact ⟨t, rs, execAll_cons ht [], hrest⟩

theorem State.takeDigit_yields {s : State} (hdcnt : s.dcnt.toNat ≤ 4) (d : Fin 85) :
    Yields s (s.takeDigit d) ((s.dcnt.toNat + 1) % 5) (4 * ((s.dcnt.toNat + 1) / 5)) := by
  obtain hopen | hfour := Nat.lt_or_eq_of_le hdcnt
  · have hcount : (BitVec.ofNat 3 (s.dcnt.toNat + 1)).toNat = (s.dcnt.toNat + 1) % 5 := by
      rw [BitVec.toNat_ofNat]
      omega
    rw [State.takeDigit_of_open hopen]
    exact yields_next (seq := []) rfl hcount rfl (by rw [List.length_nil]; omega)
  · rw [State.takeDigit_of_four hfour, hfour]
    exact yields_next rfl rfl rfl (bytesOf_length _ _ le_rfl) (by rw [bytesOf_length _ _ le_rfl]; omega)

/-- DEC counts a digit byte, answers four bytes for a shortcut byte and for every fifth digit, and nothing else. -/
theorem exec_dec_yields {s : State} {rom : Rom} (hrom : romOf Config.build s.tsel = some rom)
    (hdcnt : s.dcnt.toNat ≤ 4) (c : Byte) :
    Yields s (exec (.dec c) s) ((s.dcnt.toNat + if isDigitByte rom c then 1 else 0) % 5)
      (4 * ((s.dcnt.toNat + if isDigitByte rom c then 1 else 0) / 5) + 4 * if isShortcutByte c then 1 else 0) := by
  have hkeep : s.dcnt.toNat = (s.dcnt.toNat + 0) % 5 := by omega
  have hnone : 0 = 4 * ((s.dcnt.toNat + 0) / 5) + 4 * 0 := by omega
  have hfour : 4 = 4 * ((s.dcnt.toNat + 0) / 5) + 4 * 1 := by omega
  cases hclass : classify rom c with
  | zeroShortcut =>
    obtain rfl := classify_eq_zeroShortcut_iff.mp hclass
    have hdigit : isDigitByte rom zSym = false := by simp [isDigitByte, zSym]
    rw [exec_dec_zSym, hdigit, show isShortcutByte zSym = true from rfl]
    exact yields_next rfl hkeep rfl hfour
  | spaceShortcut =>
    obtain rfl := classify_eq_spaceShortcut_iff.mp hclass
    have hdigit : isDigitByte rom ySym = false := by simp [isDigitByte, ySym]
    rw [exec_dec_ySym, hdigit, show isShortcutByte ySym = true from rfl]
    exact yields_next rfl hkeep rfl hfour
  | digit d =>
    obtain ⟨hz, hy, hdec⟩ := classify_eq_digit_iff.mp hclass
    have hdigit : isDigitByte rom c = true := decide_eq_true ⟨hz, hy, by simp [hdec]⟩
    have hshort : isShortcutByte c = false := decide_eq_false (not_or.mpr ⟨hz, hy⟩)
    rw [exec_dec_of_digit hrom hclass, hdigit, hshort]
    exact State.takeDigit_yields hdcnt d
  | ignorable =>
    obtain ⟨hz, hy, hdec⟩ := classify_eq_ignorable_iff.mp hclass
    have hdigit : isDigitByte rom c = false := decide_eq_false fun h => h.2.2 hdec
    have hshort : isShortcutByte c = false := decide_eq_false (not_or.mpr ⟨hz, hy⟩)
    rw [exec_dec_of_ignorable hrom hclass, hdigit, hshort]
    exact yields_next (seq := []) rfl hkeep rfl hnone

theorem exec_dfl_yields {s : State} (hdcnt : s.dcnt.toNat ≤ 4) : Yields s (exec .dfl s) 0 (s.dcnt.toNat - 1) := by
  obtain hzero | hpos := Nat.eq_zero_or_pos s.dcnt.toNat
  · rw [exec_dfl_of_dcnt_eq_zero hzero]
    exact yields_next (seq := []) rfl rfl rfl (by rw [List.length_nil]; omega)
  · rw [exec_dfl_of_dcnt_pos hpos hdcnt]
    have hlen := bytesOf_length (BitVec.ofNat 32 (paddedValue s.acc.toNat s.dcnt.toNat)) (s.dcnt.toNat - 1) (by omega)
    exact yields_next rfl rfl rfl hlen (by omega)

theorem execAll_decs_yields {rom : Rom} (text : List Byte) {s : State} (hrom : romOf Config.build s.tsel = some rom)
    (hdcnt : s.dcnt.toNat ≤ 4) :
    Yields s (execAll (decsInstrs text) s) ((s.dcnt.toNat + text.countP (isDigitByte rom)) % 5)
      (4 * ((s.dcnt.toNat + text.countP (isDigitByte rom)) / 5) + 4 * text.countP isShortcutByte) := by
  induction text generalizing s with
  | nil =>
    rw [List.countP_nil, List.countP_nil, Nat.add_zero, Nat.mod_eq_of_lt (by omega), Nat.div_eq_of_lt (by omega)]
    exact ⟨s, [], rfl, rfl, rfl, (List.append_nil _).symm, rfl⟩
  | cons c text ih =>
    have hfirst := (exec_dec_yields hrom hdcnt c).singleton
    rw [List.countP_cons, List.countP_cons]
    generalize (if isDigitByte rom c = true then 1 else 0) = x at hfirst ⊢
    have hrest (t : State) (hcfg : t.cfg = s.cfg) (ht : t.dcnt.toNat = (s.dcnt.toNat + x) % 5) :=
      ih (s := t) (by rwa [State.tsel, hcfg]) (by omega)
    rw [show (s.dcnt.toNat + (text.countP (isDigitByte rom) + x)) % 5 =
      ((s.dcnt.toNat + x) % 5 + text.countP (isDigitByte rom)) % 5 by omega]
    exact hfirst.append (fun t hcfg ht => ht ▸ hrest t hcfg ht) (by omega)

theorem execAll_decm_yields {rom : Rom} (text : List Byte) {s : State} (hrom : romOf Config.build s.tsel = some rom)
    (hdcnt : s.dcnt.toNat = 0) :
    Yields s (execAll (decmInstrs text) s) 0 (4 * (text.countP (isDigitByte rom) / 5) + 4 * text.countP isShortcutByte +
      (text.countP (isDigitByte rom) % 5 - 1)) := by
  have h := execAll_decs_yields text hrom (hdcnt.trans_le (Nat.zero_le 4))
  rw [hdcnt, Nat.zero_add] at h
  refine h.append (fun t _ ht => ?_) rfl
  rw [← ht]
  exact (exec_dfl_yields (by omega)).singleton

/-- Settles O57: the length is what the commands of the text yield, and a session hands it all to the host. -/
theorem decodedLengthFormula : Obligations.DecodedLengthFormula := by
  intro text s rom hidle hdcnt hrom D S
  obtain ⟨v, rs, hexec, -, hvdcnt, hvrq, hlen⟩ := execAll_decm_yields text hrom (congrArg BitVec.toNat hdcnt)
  rw [hidle.rq, List.nil_append] at hvrq
  refine ⟨_, _, issue_of_execAll hidle.live hidle.rq hexec, ?_, BitVec.eq_of_toNat_eq hvdcnt⟩
  rw [hvrq]
  exact hlen

end Sys2Proof.Machine
end

section
/-! SUPPORT. Family 41_decoder.md, the ZEROMQ groups that do not decode back: DEC takes a `y` or `z` that stands for digit 34
or 35 for a shortcut, which changes the length of the output (41_decoder.md R162, R164, 90_conflicts.md C1). -/

namespace Sys2Proof.Machine

theorem encmInstrs_of_encInstr {group : List Byte} {i : Instr} (h : encInstr group = some i) : encmInstrs group = [i] := by
  unfold encInstr at h
  split at h <;> cases h <;> rfl

/-- Encoding one group without markers gives its symbols. -/
theorem encodeMsg_group {group : List Byte} {i : Instr} {s : State} {rom : Rom} (hgroup : encInstr group = some i)
    (hidle : Idle Config.build s) (hrom : romOf Config.build s.tsel = some rom) :
    ∃ t, encodeMsg group false s = .done (encodedSymbols rom s.gs i) t := by
  have hexec := exec_of_encodes (encodes_of_encInstr hgroup) hrom
  have hrun : execAll (encmInstrs group) s = .next (s.respond .ok false (encodedSymbols rom s.gs i)) := by
    rw [encmInstrs_of_encInstr hgroup, execAll_cons hexec]
    rfl
  have hissue := issue_of_execAll hidle.live hidle.rq hrun
  rw [State.respond_rq, hidle.rq, List.nil_append, collect_singleton,
    dataBytes_of_encInstr hgroup hrom hexec rfl] at hissue
  exact ⟨_, by rw [encodeMsg, hissue]; rfl⟩

theorem stripMarkers_of_notMem {text : List Byte} (h : 0x7E ∉ text) : stripMarkers text = some text := by
  have hstart : text.take 2 ≠ startMarker := fun heq => h (List.mem_of_mem_take (heq ▸ by decide : 0x7E ∈ text.take 2))
  rw [stripMarkers, if_neg hstart]

/-- An entry of a table is a digit byte exactly where it is no shortcut byte. -/
theorem isDigitByte_encRom {rom : Rom} (hrom : rom.distinct = true) (d : Fin 85) :
    isDigitByte rom (encRom rom d) = !isShortcutByte (encRom rom d) := by
  simp [isDigitByte, isShortcutByte, decRom_encRom hrom]

/-- Every symbol of an expansion is a digit byte or a shortcut byte. -/
theorem countP_expansion {rom : Rom} (hrom : rom.distinct = true) (w : BitVec 32) {k : Nat} (hk : k ≤ 5) :
    (expansion rom w k).countP (isDigitByte rom) + (expansion rom w k).countP isShortcutByte = k := by
  have hdigits : (expansion rom w k).countP (isDigitByte rom) =
      (expansion rom w k).countP fun c => decide ¬ isShortcutByte c = true := by
    refine List.countP_congr fun c hc => ?_
    obtain ⟨d, -, rfl⟩ := List.mem_map.mp hc
    simp [isDigitByte_encRom hrom]
  rw [hdigits, Nat.add_comm, ← List.length_eq_countP_add_countP, expansion_length rom w hk]

/-- An expansion that holds a shortcut byte decodes to another number of bytes than it was made from: with `D` digits and
`S` shortcuts among its `D + S` symbols, to `4 * S + (D - 1)` and not to `D + S - 1`. -/
theorem decodeMsg_length_ne {rom : Rom} {w : BitVec 32} {n : Nat} {u : State} (hn4 : n ≤ 4)
    (hrom : romOf Config.build u.tsel = some rom) (hidle : Idle Config.build u) (hdcnt : u.dcnt = 0)
    (hmarker : 0x7E ∉ expansion rom w (n + 1)) (hshort : zSym ∈ expansion rom w (n + 1) ∨ ySym ∈ expansion rom w (n + 1)) :
    ∃ out v, decodeMsg (expansion rom w (n + 1)) u = .done out v ∧ out.length ≠ n := by
  obtain ⟨out, v, hissue, hlen, -⟩ := decodedLengthFormula (expansion rom w (n + 1)) u rom hidle hdcnt hrom
  refine ⟨out, v, by rw [decodeMsg, stripMarkers_of_notMem hmarker]; exact hissue, ?_⟩
  have hcount := countP_expansion (romOf_distinct hrom) w (k := n + 1) (by omega)
  have hpos : 0 < (expansion rom w (n + 1)).countP isShortcutByte := by
    rw [List.countP_pos_iff]
    exact hshort.elim (fun h => ⟨_, h, rfl⟩) (fun h => ⟨_, h, rfl⟩)
  change out.length = 4 * ((expansion rom w (n + 1)).countP (isDigitByte rom) / 5) +
    4 * (expansion rom w (n + 1)).countP isShortcutByte +
    ((expansion rom w (n + 1)).countP (isDigitByte rom) % 5 - 1) at hlen
  omega

/-- The digits ZEROMQ writes as `y` and `z`. -/
def HasShadowedDigit (ds : List (Fin 85)) : Prop := 34 ∈ ds ∨ 35 ∈ ds

theorem shortcut_mem_expansion {w : BitVec 32} {k : Nat} (h : HasShadowedDigit ((digits5 w).take k)) :
    zSym ∈ expansion zeromqRom w k ∨ ySym ∈ expansion zeromqRom w k :=
  h.symm.imp (fun h => List.mem_map.mpr ⟨35, h, rfl⟩) (fun h => List.mem_map.mpr ⟨34, h, rfl⟩)

theorem encRom_zeromqRom_ne (d : Fin 85) : encRom zeromqRom d ≠ 0x7E := by
  decide +revert

/-- A group that encodes to a text with a shortcut byte in it, and whose text decodes to something else. -/
def LostGroup (s u : State) (group : List Byte) : Prop :=
  ∃ text out t v, encodeMsg group false s = .done text t ∧ (0x79 ∈ text ∨ 0x7A ∈ text) ∧
    decodeMsg text u = .done out v ∧ out ≠ group

theorem lostGroup_of_hasShadowedDigit {group : List Byte} {i : Instr} {s u : State} (hgroup : encInstr group = some i)
    (hs : Idle Config.build s) (hu : Idle Config.build u) (hdcnt : u.dcnt = 0) (hstsel : s.tsel = 1) (hutsel : u.tsel = 1)
    (h : HasShadowedDigit ((digits5 (groupWord group)).take (group.length + 1))) : LostGroup s u group := by
  obtain ⟨-, hn4⟩ := encInstr_length hgroup
  have hsrom : romOf Config.build s.tsel = some zeromqRom := hstsel ▸ romOf_one _
  have hurom : romOf Config.build u.tsel = some zeromqRom := hutsel ▸ romOf_one _
  have hmarker : 0x7E ∉ expansion zeromqRom (groupWord group) (group.length + 1) := by
    intro hmem
    obtain ⟨d, -, hd⟩ := List.mem_map.mp hmem
    exact encRom_zeromqRom_ne d hd
  have hshort := shortcut_mem_expansion h
  obtain ⟨t, hencode⟩ := encodeMsg_group hgroup hs hsrom
  obtain ⟨out, v, hdecode, hlen⟩ := decodeMsg_length_ne hn4 hurom hu hdcnt hmarker hshort
  obtain hsymbols | ⟨-, rfl⟩ | ⟨-, rfl⟩ := encodedSymbols_of_encInstr hgroup zeromqRom s.gs
  · rw [hsymbols] at hencode
    exact ⟨_, out, t, v, hencode, hshort.symm, hdecode, fun heq => hlen (congrArg List.length heq)⟩
  · exact absurd h (by unfold HasShadowedDigit; decide)
  · exact absurd h (by unfold HasShadowedDigit; decide)

/-! ### The rule's example (41_decoder.md R164) -/

theorem encodedSymbols_example (gs : BitVec 1) :
    encodedSymbols zeromqRom gs (.enc4 0x00 0x00 0x00 0x23) = [0x30, 0x30, 0x30, 0x30, 0x7A] := by
  decide +revert

/-- Four digits 0 stay pending while the shortcut answers four zero bytes, and DFL then answers three more. -/
theorem decodeMsg_example {u : State} (hidle : Idle Config.build u) (hdcnt : u.dcnt.toNat = 0) (hacc : u.acc.toNat = 0)
    (hrom : romOf Config.build u.tsel = some zeromqRom) :
    ∃ v, decodeMsg [0x30, 0x30, 0x30, 0x30, 0x7A] u = .done [0, 0, 0, 0, 0, 0, 0] v := by
  obtain ⟨v, hdigits, -, hvacc, hvdcnt, hvrq⟩ := execAll_decs_pending (ds := [0, 0, 0, 0]) (by decide) hrom
    (by rw [hacc, hdcnt]; decide) (by rw [hdcnt]; decide)
  rw [hacc] at hvacc
  rw [hdcnt] at hvdcnt
  have hpending : (v.respond .ok false [0, 0, 0, 0]).dcnt.toNat = 4 := hvdcnt
  have hclose := exec_dfl_of_dcnt_pos (by rw [hpending]; decide) hpending.le
  rw [hpending, State.respond_acc, hvacc] at hclose
  have hrun : execAll (decmInstrs [0x30, 0x30, 0x30, 0x30, 0x7A]) u = _ :=
    (execAll_append hdigits [.dec zSym, .dfl]).trans
      ((execAll_cons (exec_dec_zSym v) [.dfl]).trans (execAll_cons hclose []))
  have hout := issue_of_execAll hidle.live hidle.rq hrun
  refine ⟨_, hout.trans (congrArg (HostResult.done · _) ?_)⟩
  change collect (v.rq ++ [respWord .ok false [0, 0, 0, 0]] ++ [respWord .ok _ (bytesOf _ 3)]) = _
  rw [hvrq, hidle.rq]
  decide

/-- Settles O56: a shadowed digit is written with a shortcut byte, which the decoder answers with four bytes of its own. -/
theorem zeromqShortcutDigitsDoNotRoundTrip : Obligations.ZeromqShortcutDigitsDoNotRoundTrip := by
  refine ⟨by decide, fun s u hs hu hdcnt hstsel hutsel => ?_⟩
  intro shadowed lost
  have hlost {group : List Byte} {i : Instr} (hgroup : encInstr group = some i)
      (h : HasShadowedDigit ((digits5 (groupWord group)).take (group.length + 1))) : LostGroup s u group :=
    lostGroup_of_hasShadowedDigit hgroup hs hu hdcnt hstsel hutsel h
  refine ⟨fun b0 b1 b2 b3 h => hlost rfl h, fun b0 b1 b2 h => hlost rfl h, fun b0 b1 h => hlost rfl h,
    fun b0 h => hlost rfl h, ?_⟩
  obtain ⟨t, hencode⟩ := encodeMsg_group (group := [0x00, 0x00, 0x00, 0x23]) rfl hs (hstsel ▸ romOf_one _)
  have hcount : u.dcnt.toNat = 0 := congrArg BitVec.toNat hdcnt
  obtain ⟨v, hdecode⟩ := decodeMsg_example hu hcount (hu.inv.acc_eq_zero hcount) (hutsel ▸ romOf_one _)
  exact ⟨t, v, (encodedSymbols_example s.gs) ▸ hencode, hdecode⟩

end Sys2Proof.Machine
end

section
/-! SUPPORT. Family 42_control.md, the statements about one CFG, CLR or STAT (42_control.md R180 to R183). -/

namespace Sys2Proof.Machine

/-! ### CFG (42_control.md R180, R181) -/

theorem decode_cfg_of_and_mask {w : CommandWord} (h : w &&& 0xF000000000 = 0x4000000000) :
    decode w = .ok (.cfg (w.extractLsb' 1 2) (w.extractLsb' 0 1)) := by
  obtain ⟨ts, gs, hcfg⟩ := (and_mask_eq_cfg_iff w).mp h
  obtain ⟨hop, -, -⟩ := decode_eq_ok_iff_spells.mp hcfg
  exact decode_eq_ok_iff_spells.mpr
    ⟨hop, BitVec.extractLsb'_extractLsb'_of_le (by decide), BitVec.extractLsb'_extractLsb'_of_le (by decide)⟩

/-- The values of TSEL that name no image of a build (10_state.md R35). -/
theorem tselExists_eq_false_iff (b : Build) (ts : BitVec 2) :
    tselExists b ts = false ↔ ts = 3 ∨ (ts = 2 ∧ b.hasCustom = false) := by
  have hvalues : ts = 0 ∨ ts = 1 ∨ ts = 2 ∨ ts = 3 := by decide +revert
  obtain rfl | rfl | rfl | rfl := hvalues
  all_goals simp [tselExists]

theorem cfgOn_of_tselExists {b : Build} {ts : BitVec 2} (h : tselExists b ts = true) (gs : BitVec 1) (s : State) :
    cfgOn b ts gs s = (s.setCfg ts gs).respond .ok false [] :=
  if_pos h

theorem cfgOn_of_not_tselExists {b : Build} {ts : BitVec 2} (h : tselExists b ts = false) (gs : BitVec 1) (s : State) :
    cfgOn b ts gs s = s.raiseIllegal :=
  if_neg (by rw [h]; decide)

/-- Settles O45: CFG is refused exactly where TSEL names no image, and a refusal writes RQ alone. -/
theorem cfgWritesBothFieldsOrRefuses : Obligations.CfgWritesBothFieldsOrRefuses := by
  refine ⟨fun w => decode_cfg_of_and_mask, fun ts gs s => congrArg Host.Outcome.next ?_⟩
  simp only [← tselExists_eq_false_iff]
  split_ifs with himage
  · exact cfgOn_of_not_tselExists himage gs s
  · exact cfgOn_of_tselExists (Bool.eq_true_of_not_eq_false himage) gs s

/-! ### CLR (42_control.md R182) -/

theorem exec_clr (s : State) : exec .clr s = .next (s.clearDigits.respond .ok false []) := rfl

/-- Settles O46: both digit registers are cleared, whatever they hold. -/
theorem clrAbandonsThePartialGroup : Obligations.ClrAbandonsThePartialGroup :=
  ⟨fun w => (and_mask_eq_clr_iff w).mp, exec_clr⟩

/-! ### STAT (42_control.md R183) -/

theorem exec_stat (s : State) : exec .stat s = .next (s.respond .ok false (statBytes Config.build s)) := rfl

/-- STAT's bytes with their zero bits written out. -/
theorem statBytes_eq (b : Build) (s : State) :
    statBytes b s = [0#5 ++ s.tsel ++ s.gs, 0#5 ++ s.dcnt, if b.hasCustom then 0x01 else 0x00] := by
  have hconfig : (s.tsel ++ s.gs).setWidth 8 = 0#5 ++ s.tsel ++ s.gs := by
    rw [BitVec.append_assoc]
    exact BitVec.setWidth_eq_append (by decide)
  have hcount : s.dcnt.setWidth 8 = 0#5 ++ s.dcnt := BitVec.setWidth_eq_append (by decide)
  rw [statBytes, hconfig, hcount]

/-- Settles O47: the three bytes of STAT and two bytes of padding. -/
theorem statReportsConfigurationAndDigitCount : Obligations.StatReportsConfigurationAndDigitCount := by
  refine ⟨fun w => (and_mask_eq_stat_iff w).mp, fun s => ?_⟩
  dsimp only
  rw [exec_stat, statBytes_eq, ← respWord_ok_three]
  rfl

end Sys2Proof.Machine
end

section
/-! SUPPORT. Family 47_host_sequences.md, what the host's sequences share: from an idle block every session answers and leaves
the block idle, and what it gives depends on the registers alone (47_host_sequences.md R200, R210). -/

namespace Sys2Proof.Machine

/-- Where the registers are good every command list answers, and they stay good. -/
theorem GoodRegisters.exists_execAll {s : State} (h : GoodRegisters Config.build s) (is : List Instr) :
    ∃ v, execAll is s = .next v ∧ GoodRegisters Config.build v := by
  induction is generalizing s with
  | nil => exact ⟨s, rfl, h⟩
  | cons i is ih =>
    obtain ⟨t, -, hexec, -⟩ := exec_answersCount h i
    obtain ⟨v, hv, hgood⟩ := ih (h.of_exec hexec)
    exact ⟨v, (execAll_cons hexec is).trans hv, hgood⟩

/-- A session from an idle block leaves it idle, with every response taken. -/
theorem Idle.deliver {s v : State} (h : Idle Config.build s) {is : List Instr} (hexec : execAll is s = .next v) :
    Idle Config.build (s.deliver v) := by
  obtain ⟨w, hw, htsel, hdcnt, hacc⟩ := h.inv.goodRegisters.exists_execAll is
  cases hexec.symm.trans hw
  exact ⟨GoodRegisters.inv ⟨htsel, hdcnt, hacc⟩ (Nat.zero_le _) (fun _ hr => nomatch hr), h.live, rfl⟩

/-- From an idle block a session gives the bytes of its commands' responses. -/
theorem Idle.issue_eq {s v : State} (h : Idle Config.build s) {is : List Instr} (hexec : execAll is s = .next v) :
    issue is s = .done (collect v.rq) (s.deliver v) :=
  issue_of_execAll h.live h.rq hexec

theorem collect_respond_rq (s : State) (rc : ResultCode) (ovf : Bool) {seq : List Byte} (h : seq.length ≤ 5) :
    collect (s.respond rc ovf seq).rq = collect s.rq ++ seq := by
  rw [State.respond_rq, collect_append, collect_singleton, dataBytes_respWord _ _ _ h]

theorem State.registers_of_bare_eq {s u : State} (h : u.bare = s.bare) :
    u.cfg = s.cfg ∧ u.acc = s.acc ∧ u.dcnt = s.dcnt := by
  simp only [State.bare, State.mk.injEq] at h
  obtain ⟨hcfg, hacc, hdcnt, -⟩ := h
  exact ⟨hcfg, hacc, hdcnt⟩

/-- Two states the host cannot tell apart by what commands do next or by the bytes it has to collect. -/
structure AlikeToHost (s u : State) : Prop where
  bare  : u.bare = s.bare
  bytes : collect u.rq = collect s.rq

theorem AlikeToHost.exec {s u t : State} {i : Instr} (h : AlikeToHost s u) (hexec : exec i s = .next t) :
    ∃ w, exec i u = .next w ∧ AlikeToHost t w := by
  obtain ⟨r, ht, hu⟩ := exec_next_congr h.bare hexec
  have hrq : t.rq = s.rq ++ [r] := congrArg State.rq ht
  refine ⟨_, hu, rfl, ?_⟩
  rw [hrq, State.answered, collect_append, collect_append, h.bytes]

theorem AlikeToHost.execAll {s u v : State} {is : List Instr} (h : AlikeToHost s u) (hexec : execAll is s = .next v) :
    ∃ w, execAll is u = .next w ∧ AlikeToHost v w := by
  induction is generalizing s u with
  | nil => cases hexec; exact ⟨u, rfl, h⟩
  | cons i is ih =>
    obtain ⟨t, hfirst, hrest⟩ := exists_of_execAll_cons hexec
    obtain ⟨x, hx, hlike⟩ := h.exec hfirst
    obtain ⟨w, hw, hvw⟩ := ih hlike hrest
    exact ⟨w, (execAll_cons hx is).trans hw, hvw⟩

/-- A session gives the same bytes from any idle block of the same registers (47_host_sequences.md R210). -/
theorem Idle.issue_congr {s u : State} (hs : Idle Config.build s) (hu : Idle Config.build u) (hbare : u.bare = s.bare)
    (is : List Instr) :
    ∃ out t v, issue is s = .done out t ∧ Idle Config.build t ∧ issue is u = .done out v := by
  obtain ⟨v, hv, -⟩ := hs.inv.goodRegisters.exists_execAll is
  obtain ⟨w, hw, -, hbytes⟩ := AlikeToHost.execAll ⟨hbare, by rw [hs.rq, hu.rq]⟩ hv
  exact ⟨_, s.deliver v, u.deliver w, hs.issue_eq hv, hs.deliver hv, hbytes ▸ hu.issue_eq hw⟩

end Sys2Proof.Machine
end

section
/-! SUPPORT. Family 47_host_sequences.md, ENCODE_MSG: the text of a message as a function of the image, GS and the message
alone (47_host_sequences.md R200, R210). -/

namespace Sys2Proof.Machine

/-- The text of a message without markers: the symbols of its encode commands, in order (47_host_sequences.md R200). -/
def messageText (rom : Rom) (gs : BitVec 1) (data : List Byte) : List Byte :=
  (encmInstrs data).flatMap (encodedSymbols rom gs)

theorem messageText_cons4 (rom : Rom) (gs : BitVec 1) (b0 b1 b2 b3 : Byte) (rest : List Byte) :
    messageText rom gs (b0 :: b1 :: b2 :: b3 :: rest) =
      encodedSymbols rom gs (.enc4 b0 b1 b2 b3) ++ messageText rom gs rest := rfl

theorem messageText_of_encInstr {group : List Byte} {i : Instr} (h : encInstr group = some i) (rom : Rom)
    (gs : BitVec 1) : messageText rom gs group = encodedSymbols rom gs i := by
  rw [messageText, encmInstrs_of_encInstr h, List.flatMap_singleton]

theorem encodes_of_mem_encmInstrs {data : List Byte} : ∀ i ∈ encmInstrs data, encodes i = true := by
  induction data using encmInstrs.induct with
  | case1 b0 b1 b2 b3 rest ih => exact List.forall_mem_cons.mpr ⟨rfl, ih⟩
  | case2 | case3 | case4 => exact List.forall_mem_singleton.mpr rfl
  | case5 => exact fun _ h => nomatch h

/-- The symbols of a command fit one response (30_encoding.md R86, R88). -/
theorem encodedSymbols_length_le (rom : Rom) (gs : BitVec 1) (i : Instr) : (encodedSymbols rom gs i).length ≤ 5 := by
  cases i with
  | enc1 | enc2 | enc3 => exact (expansion_length rom _ (by decide)).trans_le (by decide)
  | enc4 b0 b1 b2 b3 =>
    rw [encodedSymbols]
    split_ifs
    · exact Nat.le_add_left 1 4
    · exact Nat.le_add_left 1 4
    · exact (expansion_length rom _ le_rfl).le
  | dec | dfl | cfg | clr | stat => exact Nat.zero_le 5

/-- Encode commands answer their symbols, one response each, and leave the registers as they are (40_encoder.md R130). -/
theorem execAll_of_encodes {is : List Instr} (henc : ∀ i ∈ is, encodes i = true) {s : State} {rom : Rom}
    (hrom : romOf Config.build s.tsel = some rom) :
    ∃ v, execAll is s = .next v ∧ v.bare = s.bare ∧
      collect v.rq = collect s.rq ++ is.flatMap (encodedSymbols rom s.gs) := by
  induction is generalizing s with
  | nil => exact ⟨s, rfl, rfl, (List.append_nil _).symm⟩
  | cons i is ih =>
    obtain ⟨hi, his⟩ := List.forall_mem_cons.mp henc
    have hexec := exec_of_encodes hi hrom
    obtain ⟨v, hv, hbare, hbytes⟩ := ih his (s := s.respond .ok false (encodedSymbols rom s.gs i)) hrom
    refine ⟨v, (execAll_cons hexec is).trans hv, hbare, ?_⟩
    rw [hbytes, collect_respond_rq _ _ _ (encodedSymbols_length_le rom s.gs i), List.flatMap_cons, List.append_assoc]
    rfl

theorem encodeMsg_of_issue {data out : List Byte} {s t : State} (h : issue (encmInstrs data) s = .done out t)
    (delimiter : Bool) : encodeMsg data delimiter s = .done (wrap delimiter out) t := by
  rw [encodeMsg, h]

/-- ENCODE_MSG from an idle block: the text, wrapped where asked for, and a block that is idle again with the registers it
had. -/
theorem Idle.encodeMsg_eq {s : State} (h : Idle Config.build s) {rom : Rom}
    (hrom : romOf Config.build s.tsel = some rom) (data : List Byte) :
    ∃ t, (∀ delimiter, encodeMsg data delimiter s = .done (wrap delimiter (messageText rom s.gs data)) t) ∧
      t.bare = s.bare ∧ Idle Config.build t := by
  obtain ⟨v, hexec, hbare, hbytes⟩ := execAll_of_encodes (encodes_of_mem_encmInstrs (data := data)) hrom
  have hissue : issue (encmInstrs data) s = .done (messageText rom s.gs data) (s.deliver v) := by
    rw [h.issue_eq hexec, hbytes, h.rq]
    rfl
  exact ⟨s.deliver v, encodeMsg_of_issue hissue, hbare, h.deliver hexec⟩

/-! ### The bytes of the text (47_host_sequences.md R211) -/

theorem mem_rom_iff {rom : Rom} {c : Byte} : c ∈ rom.toList ↔ ∃ d, encRom rom d = c := by
  rw [Vector.mem_toList_iff, Vector.mem_iff_getElem]
  exact ⟨fun ⟨i, hi, h⟩ => ⟨⟨i, hi⟩, h⟩, fun ⟨d, h⟩ => ⟨d.val, d.isLt, h⟩⟩

/-- The entries of STANDARD are 0x21 to 0x75 (30_encoding.md R90). -/
theorem toNat_of_mem_standardRom {c : Byte} (h : c ∈ standardRom.toList) : 0x21 ≤ c.toNat ∧ c.toNat ≤ 0x75 := by
  obtain ⟨d, rfl⟩ := mem_rom_iff.mp h
  have hd := d.isLt
  rw [encRom_standardRom_toNat]
  omega

theorem notMem_standardRom {c : Byte} (h : 0x75 < c.toNat) : c ∉ standardRom.toList := fun hmem => by
  obtain ⟨-, hmax⟩ := toNat_of_mem_standardRom hmem
  omega

/-- The entries of ZEROMQ are 7-bit (30_encoding.md R91). -/
theorem toNat_lt_of_mem_zeromqRom {c : Byte} (h : c ∈ zeromqRom.toList) : c.toNat < 128 := by
  have hall : ∀ d, (encRom zeromqRom d).toNat < 128 := by decide
  obtain ⟨d, rfl⟩ := mem_rom_iff.mp h
  exact hall d

theorem mem_of_mem_expansion {rom : Rom} {w : BitVec 32} {k : Nat} {c : Byte} (h : c ∈ expansion rom w k) :
    c ∈ rom.toList := by
  obtain ⟨d, -, hd⟩ := List.mem_map.mp h
  exact mem_rom_iff.mpr ⟨d, hd⟩

/-- Every symbol is an entry of the image or a shortcut. -/
theorem mem_of_mem_encodedSymbols {rom : Rom} {gs : BitVec 1} {i : Instr} {c : Byte}
    (h : c ∈ encodedSymbols rom gs i) : c ∈ rom.toList ∨ c = ySym ∨ c = zSym := by
  cases i with
  | enc1 | enc2 | enc3 => exact .inl (mem_of_mem_expansion h)
  | enc4 b0 b1 b2 b3 =>
    rw [encodedSymbols] at h
    split_ifs at h
    · exact .inr (.inr (List.mem_singleton.mp h))
    · exact .inr (.inl (List.mem_singleton.mp h))
    · exact .inl (mem_of_mem_expansion h)
  | dec | dfl | cfg | clr | stat => exact absurd h List.not_mem_nil

theorem mem_of_mem_messageText {rom : Rom} {gs : BitVec 1} {data : List Byte} {c : Byte}
    (h : c ∈ messageText rom gs data) : c ∈ rom.toList ∨ c = ySym ∨ c = zSym := by
  obtain ⟨i, -, hc⟩ := List.mem_flatMap.mp h
  exact mem_of_mem_encodedSymbols hc

end Sys2Proof.Machine
end

section
/-! SUPPORT. Family 47_host_sequences.md, the round trip: the text of a message decodes back group by group, since every group
leaves no digit pending (47_host_sequences.md R204, R207, 41_decoder.md R163). -/

namespace Sys2Proof.Machine

/-! ### The markers -/

theorem stripMarkers_wrap (body : List Byte) : stripMarkers (wrap true body) = some body := by
  have hbody : wrap true body = [0x3C, 0x7E] ++ (body ++ [0x7E, 0x3E]) := List.append_assoc _ _ _
  have hlen : (wrap true body).length = body.length + 4 := by simp [hbody]
  have hend : (wrap true body).drop (body.length + 2) = endMarker := List.drop_left' (by simp [startMarker])
  have hfront : (wrap true body).take (body.length + 2) = startMarker ++ body := List.take_left' (by simp [startMarker])
  rw [stripMarkers, hlen, Nat.add_sub_assoc (by decide), hend, hfront, if_pos (by rw [hbody]; rfl),
    if_pos ⟨by omega, rfl⟩]
  rfl

theorem stripMarkers_of_take_ne {text : List Byte} (h : text.take 2 ≠ startMarker) : stripMarkers text = some text :=
  if_neg h

/-- Text without 0x7E does not begin with the start marker. -/
theorem take_ne_startMarker {text : List Byte} (h : 0x7E ∉ text) : text.take 2 ≠ startMarker := fun heq =>
  h (List.mem_of_mem_take (heq ▸ by decide : 0x7E ∈ text.take 2))

/-! ### The groups -/

/-- The commands take `u` to a state of the same CFG with no digit pending, and give the host the bytes `out`. -/
def DecodesTo (is : List Instr) (u : State) (out : List Byte) : Prop :=
  ∃ v, execAll is u = .next v ∧ v.cfg = u.cfg ∧ v.acc.toNat = 0 ∧ v.dcnt.toNat = 0 ∧ collect v.rq = collect u.rq ++ out

theorem DecodesTo.append {is js : List Instr} {u : State} {out rest : List Byte} (h : DecodesTo is u out)
    (hrest : ∀ v : State, v.cfg = u.cfg → v.acc.toNat = 0 → v.dcnt.toNat = 0 → DecodesTo js v rest) :
    DecodesTo (is ++ js) u (out ++ rest) := by
  obtain ⟨v, hv, hcfg, hacc, hdcnt, hbytes⟩ := h
  obtain ⟨w, hw, hwcfg, hwacc, hwdcnt, hwbytes⟩ := hrest v hcfg hacc hdcnt
  refine ⟨w, (execAll_append hv js).trans hw, hwcfg.trans hcfg, hwacc, hwdcnt, ?_⟩
  rw [hwbytes, hbytes, List.append_assoc]

/-- A shortcut answers its four bytes at once (41_decoder.md R151, R152). -/
theorem decodesTo_shortcut {short : Byte} {seq : List Byte} {u : State}
    (h : exec (.dec short) u = .next (u.respond .ok false seq)) (hlen : seq.length ≤ 5) (hacc : u.acc.toNat = 0)
    (hdcnt : u.dcnt.toNat = 0) : DecodesTo (decsInstrs [short]) u seq := by
  exact ⟨_, execAll_cons h [], rfl, hacc, hdcnt, collect_respond_rq u _ _ hlen⟩

section Table
variable {rom : Rom} (hy : 0x79 ∉ rom.toList) (hz : 0x7A ∉ rom.toList)
include hy hz

/-- In a table without the shortcut bytes every group decodes back, through its digits or through its shortcut. -/
theorem decodesTo_group {group : List Byte} {i : Instr} (hgroup : encInstr group = some i) (gs : BitVec 1) {u : State}
    (hrom : romOf Config.build u.tsel = some rom) (hacc : u.acc.toNat = 0) (hdcnt : u.dcnt.toNat = 0) :
    DecodesTo (groupCommands group.length (encodedSymbols rom gs i)) u group := by
  obtain ⟨hn, hn4⟩ := encInstr_length hgroup
  obtain h | ⟨h, rfl⟩ | ⟨h, rfl⟩ := encodedSymbols_of_encInstr hgroup rom gs
  · rw [h]
    obtain ⟨v, rs, hexec, hrq, hcollect, -, hcfg, hvacc, hvdcnt⟩ := execAll_groupCommands_expansion hn hn4
      (fun hmem => hz (mem_of_mem_expansion hmem)) (fun hmem => hy (mem_of_mem_expansion hmem)) hrom hacc hdcnt
    refine ⟨v, hexec, hcfg, congrArg BitVec.toNat hvacc, congrArg BitVec.toNat hvdcnt, ?_⟩
    rw [hrq, collect_append, hcollect]
  · rw [h]
    exact decodesTo_shortcut (exec_dec_zSym u) (by decide) hacc hdcnt
  · rw [h]
    exact decodesTo_shortcut (exec_dec_ySym u) (by decide) hacc hdcnt

/-- The last group of a message, when it is not full: DEC for each symbol, then DFL. -/
theorem decodesTo_tail {group : List Byte} {i : Instr} (hgroup : encInstr group = some i) (htail : group.length < 4)
    (gs : BitVec 1) {u : State} (hrom : romOf Config.build u.tsel = some rom) (hacc : u.acc.toNat = 0)
    (hdcnt : u.dcnt.toNat = 0) : DecodesTo (decmInstrs (messageText rom gs group)) u group := by
  have h := decodesTo_group hy hz hgroup gs hrom hacc hdcnt
  rwa [groupCommands, if_pos htail, ← messageText_of_encInstr hgroup] at h

/-- In a table without the shortcut bytes the text of every message decodes back. -/
theorem decodesTo_messageText (gs : BitVec 1) (data : List Byte) {u : State}
    (hrom : romOf Config.build u.tsel = some rom) (hacc : u.acc.toNat = 0) (hdcnt : u.dcnt.toNat = 0) :
    DecodesTo (decmInstrs (messageText rom gs data)) u data := by
  induction data using encmInstrs.induct generalizing u with
  | case1 b0 b1 b2 b3 rest ih =>
    have hfirst : DecodesTo (decsInstrs (encodedSymbols rom gs (.enc4 b0 b1 b2 b3))) u [b0, b1, b2, b3] :=
      decodesTo_group hy hz (group := [b0, b1, b2, b3]) rfl gs hrom hacc hdcnt
    have hcommands : decmInstrs (messageText rom gs (b0 :: b1 :: b2 :: b3 :: rest)) =
        decsInstrs (encodedSymbols rom gs (.enc4 b0 b1 b2 b3)) ++ decmInstrs (messageText rom gs rest) := by
      simp only [messageText_cons4, decmInstrs, decsInstrs, List.map_append, List.append_assoc]
    rw [hcommands]
    exact hfirst.append fun v hcfg hvacc hvdcnt => ih (by rwa [State.tsel, hcfg]) hvacc hvdcnt
  | case2 b0 b1 b2 => exact decodesTo_tail hy hz rfl (by simp) gs hrom hacc hdcnt
  | case3 b0 b1 => exact decodesTo_tail hy hz rfl (by simp) gs hrom hacc hdcnt
  | case4 b0 => exact decodesTo_tail hy hz rfl (by simp) gs hrom hacc hdcnt
  | case5 =>
    exact ⟨_, execAll_cons (exec_dfl_of_dcnt_eq_zero hdcnt) [], rfl, rfl, rfl, collect_respond_rq u _ _ (by decide)⟩

end Table

/-- What a list of commands decodes to is what the host gets from an idle block. -/
theorem Idle.issue_of_decodesTo {is : List Instr} {u : State} {out : List Byte} (hidle : Idle Config.build u)
    (h : DecodesTo is u out) : ∃ v, issue is u = .done out v ∧ v.dcnt = 0 := by
  obtain ⟨v, hexec, -, -, hdcnt, hbytes⟩ := h
  rw [hidle.rq] at hbytes
  refine ⟨u.deliver v, ?_, BitVec.eq_of_toNat_eq hdcnt⟩
  rw [hidle.issue_eq hexec, hbytes]
  rfl

/-- STANDARD holds neither shortcut byte and ZEROMQ both; neither holds 0x7E (41_decoder.md R164). -/
theorem shortcuts_in_the_images : 0x79 ∉ standardRom.toList ∧ 0x7A ∉ standardRom.toList ∧ 0x79 ∈ zeromqRom.toList ∧
    0x7A ∈ zeromqRom.toList ∧ 0x7E ∉ standardRom.toList ∧ 0x7E ∉ zeromqRom.toList := by
  refine ⟨notMem_standardRom (by decide), notMem_standardRom (by decide), mem_rom_iff.mpr ⟨34, rfl⟩,
    mem_rom_iff.mpr ⟨35, rfl⟩, notMem_standardRom (by decide), fun hmem => ?_⟩
  obtain ⟨d, hd⟩ := mem_rom_iff.mp hmem
  exact encRom_zeromqRom_ne d hd

/-- Settles O55: the text's body is the message's symbols, which decode back; without 0x7E in the table no symbol is one. -/
theorem messageRoundTrip : Obligations.MessageRoundTrip := by
  refine ⟨shortcuts_in_the_images, fun data delimiter s u rom hs hu hdcnt htsel hrom hy hz => ?_⟩
  obtain ⟨t, hencode, -⟩ := hs.encodeMsg_eq hrom data
  have hcount : u.dcnt.toNat = 0 := congrArg BitVec.toNat hdcnt
  have hback := hu.issue_of_decodesTo
    (decodesTo_messageText hy hz s.gs data (htsel ▸ hrom) (hu.inv.acc_eq_zero hcount) hcount)
  refine ⟨_, t, hencode delimiter, fun hmarkers => ?_, fun hplain htilde => ?_⟩
  · have hbody : stripMarkers (wrap delimiter (messageText rom s.gs data)) = some (messageText rom s.gs data) := by
      cases delimiter with
      | true => exact stripMarkers_wrap _
      | false => exact stripMarkers_of_take_ne (hmarkers.resolve_left (by decide))
    rwa [decodeMsg, hbody]
  · subst hplain
    refine take_ne_startMarker fun hmem => ?_
    obtain h | h | h := mem_of_mem_messageText hmem
    · exact htilde h
    · exact absurd h (by decide)
    · exact absurd h (by decide)

end Sys2Proof.Machine
end

section
/-! SUPPORT. Family 47_host_sequences.md, the statements about ENCODE_MSG (47_host_sequences.md R200, R202, R211). -/

namespace Sys2Proof.Machine

/-- Settles O49: the text of a message is its groups' symbols, and one group's symbols are its response's bytes. -/
theorem messageIsEncodedGroupByGroup : Obligations.MessageIsEncodedGroupByGroup := by
  refine ⟨fun group i r s t hidle hgroup hexec hrq => ?_, fun b0 b1 b2 b3 rest s hidle => ?_, fun data s hidle => ?_⟩
  · obtain ⟨rom, hrom⟩ := exists_romOf hidle.inv.tsel
    obtain ⟨u, hencode, hbare, -⟩ := hidle.encodeMsg_eq hrom group
    have hbytes := dataBytes_of_encInstr hgroup hrom hexec (by rw [hrq, hidle.rq, List.nil_append])
    refine ⟨u, ?_, State.registers_of_bare_eq hbare⟩
    rw [hencode, messageText_of_encInstr hgroup, hbytes]
    rfl
  · obtain ⟨rom, hrom⟩ := exists_romOf hidle.inv.tsel
    obtain ⟨t1, hgroup, -⟩ := hidle.encodeMsg_eq hrom [b0, b1, b2, b3]
    obtain ⟨t2, htail, -⟩ := hidle.encodeMsg_eq hrom rest
    obtain ⟨t3, hall, -⟩ := hidle.encodeMsg_eq hrom (b0 :: b1 :: b2 :: b3 :: rest)
    rw [messageText_cons4, ← messageText_of_encInstr (group := [b0, b1, b2, b3]) rfl] at hall
    exact ⟨_, _, t1, t2, t3, hgroup false, htail false, hall false⟩
  · obtain ⟨rom, hrom⟩ := exists_romOf hidle.inv.tsel
    obtain ⟨t, hencode, -⟩ := hidle.encodeMsg_eq hrom data
    exact ⟨_, t, hencode false, hencode true⟩

/-! ### The length (47_host_sequences.md R202) -/

/-- ENC4 answers one symbol for a shortcut and five otherwise (40_encoder.md R122). -/
theorem encodedSymbols_enc4_length (rom : Rom) (gs : BitVec 1) (b0 b1 b2 b3 : Byte) :
    (encodedSymbols rom gs (.enc4 b0 b1 b2 b3)).length +
      4 * (if zdet 4 (groupValue4 b0 b1 b2 b3) || sdet 4 gs (groupValue4 b0 b1 b2 b3) then 1 else 0) = 5 := by
  rw [encodedSymbols]
  cases zdet 4 (groupValue4 b0 b1 b2 b3)
  · cases sdet 4 gs (groupValue4 b0 b1 b2 b3)
    · exact expansion_length rom _ le_rfl
    · rfl
  · rfl

theorem shortcutGroups_le (gs : BitVec 1) (data : List Byte) : shortcutGroups gs data ≤ data.length / 4 := by
  induction data using encmInstrs.induct with
  | case1 b0 b1 b2 b3 rest ih =>
    simp only [shortcutGroups, List.length_cons]
    split_ifs <;> omega
  | case2 | case3 | case4 | case5 => exact Nat.zero_le _

/-- The last group of a message, when it is not full, takes one symbol more than it has bytes (40_encoder.md R125 to
R127). -/
theorem messageText_tail_length {group : List Byte} {i : Instr} (hgroup : encInstr group = some i)
    (htail : group.length < 4) (rom : Rom) (gs : BitVec 1) : (messageText rom gs group).length = group.length + 1 := by
  rw [messageText_of_encInstr hgroup]
  obtain h | ⟨-, rfl⟩ | ⟨-, rfl⟩ := encodedSymbols_of_encInstr hgroup rom gs
  · rw [h, expansion_length rom _ (by omega)]
  · exact absurd htail (by decide)
  · exact absurd htail (by decide)

/-- Every full group that takes a shortcut saves four symbols. -/
theorem messageText_length (rom : Rom) (gs : BitVec 1) (data : List Byte) :
    (messageText rom gs data).length + 4 * shortcutGroups gs data =
      5 * (data.length / 4) + if 0 < data.length % 4 then data.length % 4 + 1 else 0 := by
  induction data using encmInstrs.induct with
  | case1 b0 b1 b2 b3 rest ih =>
    have hgroup := encodedSymbols_enc4_length rom gs b0 b1 b2 b3
    have hdiv : (rest.length + 1 + 1 + 1 + 1) / 4 = rest.length / 4 + 1 := by omega
    have hmod : (rest.length + 1 + 1 + 1 + 1) % 4 = rest.length % 4 := by omega
    simp only [messageText_cons4, shortcutGroups, List.length_cons, List.length_append, hdiv, hmod]
    omega
  | case2 b0 b1 b2 => simpa [shortcutGroups] using messageText_tail_length (group := [b0, b1, b2]) rfl (by simp) rom gs
  | case3 b0 b1 => simpa [shortcutGroups] using messageText_tail_length (group := [b0, b1]) rfl (by simp) rom gs
  | case4 b0 => simpa [shortcutGroups] using messageText_tail_length (group := [b0]) rfl (by simp) rom gs
  | case5 => rfl

theorem wrap_length (delimiter : Bool) (text : List Byte) :
    (wrap delimiter text).length = text.length + if delimiter then 4 else 0 := by
  cases delimiter <;> simp [wrap, startMarker, endMarker]

/-- Settles O51: five symbols for each full group less four for each shortcut, the tail and the markers. -/
theorem encodedLengthFormula : Obligations.EncodedLengthFormula := by
  intro data delimiter s hidle Q k Z
  obtain ⟨rom, hrom⟩ := exists_romOf hidle.inv.tsel
  obtain ⟨t, hencode, -⟩ := hidle.encodeMsg_eq hrom data
  have hZ : Z ≤ Q := shortcutGroups_le s.gs data
  have hlen : (messageText rom s.gs data).length + 4 * Z = 5 * Q + if 0 < k then k + 1 else 0 :=
    messageText_length rom s.gs data
  have hwrap := wrap_length delimiter (messageText rom s.gs data)
  exact ⟨hZ, _, t, hencode delimiter, by omega, by omega⟩

/-! ### The alphabet (47_host_sequences.md R211) -/

/-- Settles O52: every symbol is an entry of the image or a shortcut, and the entries of the two images are known. -/
theorem outputAlphabet : Obligations.OutputAlphabet := by
  intro data s hidle
  obtain ⟨rom, hrom⟩ := exists_romOf hidle.inv.tsel
  obtain ⟨t, hencode, -⟩ := hidle.encodeMsg_eq hrom data
  have hmem {c : Byte} (hc : c ∈ messageText rom s.gs data) : c ∈ rom.toList ∨ c = 0x79 ∨ c = 0x7A :=
    mem_of_mem_messageText hc
  have hstandard (hts : s.tsel = 0) : rom = standardRom := Option.some.inj (hrom.symm.trans (hts ▸ romOf_zero _))
  have hzeromq (hts : s.tsel = 1) : rom = zeromqRom := Option.some.inj (hrom.symm.trans (hts ▸ romOf_one _))
  have hshort7 {c : Byte} (hc : c = 0x79 ∨ c = 0x7A) : c.toNat < 128 := by
    obtain rfl | rfl := hc <;> decide
  refine ⟨_, t, hencode false, fun hts c hc => ?_, fun hts c hc => ?_, fun hts c hc => ?_, fun rom' hrom' c hc => ?_, t,
    hencode true⟩
  · obtain rfl := hstandard hts
    exact (hmem hc).imp_left toNat_of_mem_standardRom
  · obtain rfl := hzeromq hts
    obtain h | rfl | rfl := hmem hc
    · exact h
    · decide
    · decide
  · refine (hmem hc).elim ?_ hshort7
    obtain hts | hts := hts
    · obtain rfl := hstandard hts
      exact fun hstd => (toNat_of_mem_standardRom hstd).2.trans_lt (by decide)
    · obtain rfl := hzeromq hts
      exact toNat_lt_of_mem_zeromqRom
  · obtain rfl : rom = rom' := Option.some.inj (hrom.symm.trans hrom')
    exact hmem hc

end Sys2Proof.Machine
end

section
/-! SUPPORT. Family 47_host_sequences.md, the statements about DECODE_MSG (47_host_sequences.md R201, R204, R205, R206, R209). -/

namespace Sys2Proof.Machine

theorem decodeMsg_of_strip {text body : List Byte} (h : stripMarkers text = some body) (s : State) :
    decodeMsg text s = issue (decmInstrs body) s := by
  rw [decodeMsg, h]

theorem decodeMsg_of_mismatch {text : List Byte} (h : stripMarkers text = none) (s : State) :
    decodeMsg text s = .delimiterMismatch s := by
  rw [decodeMsg, h]

/-- Settles O53: the three cases of the check, each by what it leaves of the text. -/
theorem delimiterCheckOfDecode : Obligations.DelimiterCheckOfDecode := by
  refine fun s => ⟨fun text hstart hend => ?_, fun body => ?_, fun text hstart => ?_⟩
  · exact decodeMsg_of_mismatch ((if_pos hstart).trans (if_neg hend)) s
  · exact decodeMsg_of_strip (stripMarkers_wrap body) s
  · exact decodeMsg_of_strip (stripMarkers_of_take_ne hstart) s

/-- Settles O50: no command, and a DFL with no digit pending. -/
theorem emptyMessagesGiveEmptyOutput : Obligations.EmptyMessagesGiveEmptyOutput := by
  intro s hidle hdcnt
  obtain ⟨rom, hrom⟩ := exists_romOf hidle.inv.tsel
  obtain ⟨t, hencode, -⟩ := hidle.encodeMsg_eq hrom []
  obtain ⟨out, u, hdecode, hlen, -⟩ := decodedLengthFormula [] s rom hidle hdcnt hrom
  obtain rfl : out = [] := List.length_eq_zero_iff.mp (by simpa using hlen)
  exact ⟨rfl, ⟨t, hencode false⟩, ⟨t, hencode true⟩,
    ⟨u, (decodeMsg_of_strip (stripMarkers_of_take_ne (by decide)) s).trans hdecode⟩,
    ⟨u, (decodeMsg_of_strip (stripMarkers_wrap []) s).trans hdecode⟩⟩

/-! ### A call abandoned late (47_host_sequences.md R206) -/

theorem Idle.abandonDecode_eq {s : State} (h : Idle Config.build s) (begun : List Byte) :
    ∃ t, abandonDecode begun s = .delimiterMismatch t ∧ t.acc = 0 ∧ t.dcnt = 0 ∧ t.cfg = s.cfg ∧
      Idle Config.build t := by
  obtain ⟨rom, hrom⟩ := exists_romOf h.inv.tsel
  obtain ⟨v, -, hdecs, hcfg, -⟩ := execAll_decs_yields begun hrom h.inv.dcnt
  have hexec : execAll (decsInstrs begun ++ [.clr]) s = .next (v.clearDigits.respond .ok false []) :=
    (execAll_append hdecs [.clr]).trans (execAll_cons (exec_clr v) [])
  exact ⟨s.deliver (v.clearDigits.respond .ok false []), by rw [abandonDecode, h.issue_eq hexec], rfl, rfl, hcfg,
    h.deliver hexec⟩

/-- Settles O54: DEC keeps CFG, and CLR clears the digits. -/
theorem abandonedDecodeLeavesACleanDecoder : Obligations.AbandonedDecodeLeavesACleanDecoder := by
  intro begun s hidle
  obtain ⟨t, habandon, hacc, hdcnt, hcfg, hclean⟩ := hidle.abandonDecode_eq begun
  exact ⟨t, habandon, hacc, hdcnt, hcfg, hclean.rq⟩

/-! ### Ignorable bytes (47_host_sequences.md R209, 41_decoder.md R155) -/

/-- The bytes of a text that DEC does not ignore. -/
def withoutIgnorable (rom : Rom) (text : List Byte) : List Byte :=
  text.filter fun c => decide (classify rom c ≠ .ignorable)

/-- The empty answer to an ignorable byte is nothing to the host. -/
theorem AlikeToHost.respond_nil {s u : State} (h : AlikeToHost s u) : AlikeToHost (s.respond .ok false []) u := by
  refine ⟨h.bare, ?_⟩
  rw [collect_respond_rq _ _ _ (by decide), List.append_nil, h.bytes]

theorem AlikeToHost.decm_withoutIgnorable {rom : Rom} (text : List Byte) {s u v : State} (h : AlikeToHost s u)
    (hgood : GoodRegisters Config.build s) (hrom : romOf Config.build s.tsel = some rom)
    (hexec : Machine.execAll (decmInstrs text) s = .next v) :
    ∃ w, Machine.execAll (decmInstrs (withoutIgnorable rom text)) u = .next w ∧ AlikeToHost v w := by
  induction text generalizing s u with
  | nil => exact h.execAll hexec
  | cons c text ih =>
    obtain ⟨t, hfirst, hrest⟩ := exists_of_execAll_cons hexec
    by_cases hclass : classify rom c = .ignorable
    · cases (exec_dec_of_ignorable hrom hclass).symm.trans hfirst
      rw [withoutIgnorable, List.filter_cons_of_neg (by simp [hclass])]
      exact ih h.respond_nil (hgood.respond _ _ _) hrom hrest
    · rw [withoutIgnorable, List.filter_cons_of_pos (by simp [hclass])]
      obtain ⟨x, hx, hlike⟩ := h.exec hfirst
      obtain ⟨t', -, ht', hcfg, -⟩ := exec_dec_yields hrom hgood.dcnt c
      cases hfirst.symm.trans ht'
      obtain ⟨w, hw, hvw⟩ := ih hlike (hgood.of_exec hfirst) (by rwa [State.tsel, hcfg]) hrest
      exact ⟨w, (execAll_cons hx _).trans hw, hvw⟩

/-- Settles O58: an ignorable byte leaves the registers as they are and answers nothing. -/
theorem ignorableBytesDoNotChangeTheOutput : Obligations.IgnorableBytesDoNotChangeTheOutput := by
  intro text s rom hidle hrom
  have hgood := hidle.inv.goodRegisters
  obtain ⟨v, hv, -⟩ := hgood.exists_execAll (decmInstrs text)
  obtain ⟨w, hw, hbare, hbytes⟩ := AlikeToHost.decm_withoutIgnorable text ⟨rfl, rfl⟩ hgood hrom hv
  exact ⟨_, s.deliver v, s.deliver w, hidle.issue_eq hv, hbytes ▸ hidle.issue_eq hw,
    State.registers_of_bare_eq hbare⟩

end Sys2Proof.Machine
end

section
/-! SUPPORT. Family 47_host_sequences.md, a call under an override: STAT and CFG before the call, CFG after it
(47_host_sequences.md R208). -/

namespace Sys2Proof.Machine

/-- What the host writes back is what STAT reported. -/
theorem restoreCfg_statBytes (b : Build) (s : State) : restoreCfg ((statBytes b s).getD 0 0) = .cfg s.tsel s.gs := by
  have hbyte (ts : BitVec 2) (gs : BitVec 1) : restoreCfg ((ts ++ gs).setWidth 8) = .cfg ts gs := by decide +revert
  exact hbyte s.tsel s.gs

theorem exec_cfg_of_tselExists {ts : BitVec 2} (h : tselExists Config.build ts = true) (gs : BitVec 1) (s : State) :
    exec (.cfg ts gs) s = .next ((s.setCfg ts gs).respond .ok false []) :=
  congrArg Host.Outcome.next (cfgOn_of_tselExists h gs s)

/-- CFG writes no other register, and an idle block stays idle under a table that exists. -/
theorem Idle.setCfg {b : Build} {s : State} (h : Idle b s) {ts : BitVec 2} (himage : tselExists b ts = true)
    (gs : BitVec 1) : Idle b (s.setCfg ts gs) :=
  ⟨(h.inv.goodRegisters.setCfg himage gs).inv h.inv.depth h.inv.queued, h.live, h.rq⟩

/-- Before the call: the host holds STAT's answer, and the block runs under the override. -/
theorem Idle.issue_override {ts : BitVec 2} {s : State} (hidle : Idle Config.build s)
    (himage : tselExists Config.build ts = true) (gs : BitVec 1) :
    ∃ s1, issue [.stat, .cfg ts gs] s = .done (statBytes Config.build s) s1 ∧ s1.bare = (s.setCfg ts gs).bare ∧
      Idle Config.build s1 := by
  have hexec : execAll [.stat, .cfg ts gs] s = .next _ :=
    (execAll_cons (exec_stat s) _).trans (execAll_cons (exec_cfg_of_tselExists himage gs _) [])
  refine ⟨_, (hidle.issue_eq hexec).trans (congrArg (HostResult.done · _) ?_), rfl, hidle.deliver hexec⟩
  rw [collect_respond_rq _ _ _ (by decide), State.setCfg_rq, collect_respond_rq _ _ _ (by simp [statBytes]), hidle.rq,
    List.append_nil]
  rfl

/-- The block after a call under an override: the configuration of `s`, the digits of `s2`, and idle. -/
structure Restored (s s2 t : State) : Prop where
  cfg  : t.cfg = s.cfg
  acc  : t.acc = s2.acc
  dcnt : t.dcnt = s2.dcnt
  idle : Idle Config.build t

/-- After the call: CFG writes the previous configuration back. -/
theorem Idle.issue_restore {s s2 : State} (hprev : tselExists Config.build s.tsel = true) (hidle : Idle Config.build s2) :
    ∃ t, issue [.cfg s.tsel s.gs] s2 = .done [] t ∧ Restored s s2 t := by
  have hexec : execAll [.cfg s.tsel s.gs] s2 = .next _ := execAll_cons (exec_cfg_of_tselExists hprev s.gs s2) []
  refine ⟨_, (hidle.issue_eq hexec).trans (congrArg (HostResult.done · _) ?_),
    ⟨cfgWord_of_fields s.cfg, rfl, rfl, hidle.deliver hexec⟩⟩
  rw [collect_respond_rq _ _ _ (by decide), State.setCfg_rq, hidle.rq]
  rfl

/-- An override around any call: the call runs in an idle block whose registers are those under the override, and what it
ends with is given on, with the previous configuration back. -/
theorem Idle.withOverride_eq {ts : BitVec 2} {s : State} (hidle : Idle Config.build s)
    (himage : tselExists Config.build ts = true) (gs : BitVec 1) :
    ∃ s1, s1.bare = (s.setCfg ts gs).bare ∧ Idle Config.build s1 ∧
      (∀ {call out s2}, call s1 = .done out s2 → Idle Config.build s2 →
        ∃ t, withOverride ts gs call s = .done out t ∧ Restored s s2 t) ∧
      (∀ {call s2}, call s1 = .delimiterMismatch s2 → Idle Config.build s2 →
        ∃ t, withOverride ts gs call s = .delimiterMismatch t ∧ Restored s s2 t) := by
  obtain ⟨s1, hbefore, hbare, hidle1⟩ := hidle.issue_override himage gs
  refine ⟨s1, hbare, hidle1, fun hcall hidle2 => ?_, fun hcall hidle2 => ?_⟩
  · obtain ⟨t, hafter, hrestored⟩ := hidle2.issue_restore hidle.inv.tsel
    refine ⟨t, ?_, hrestored⟩
    simp only [withOverride, hbefore, hcall, restoreCfg_statBytes, hafter]
  · obtain ⟨t, hafter, hrestored⟩ := hidle2.issue_restore hidle.inv.tsel
    refine ⟨t, ?_, hrestored⟩
    simp only [withOverride, hbefore, hcall, restoreCfg_statBytes, hafter]

/-- Settles O59: a call gives the same from any idle block of the same registers, and the override's frame puts CFG back. -/
theorem overrideAppliesToOneCallOnly : Obligations.OverrideAppliesToOneCallOnly := by
  intro ts gs s hidle himage
  obtain ⟨s1, hbare, hidle1, hdone, hmismatch⟩ := hidle.withOverride_eq himage gs
  obtain ⟨-, hacc1, hdcnt1⟩ := State.registers_of_bare_eq hbare
  have hcongr := hidle1.issue_congr (hidle.setCfg himage gs) hbare.symm
  refine ⟨fun data delimiter => ?_, fun text body hbody => ?_, fun text hnone => ?_, fun begun => ?_⟩
  · obtain ⟨out, s2, u, hcall, hidle2, hplain⟩ := hcongr (encmInstrs data)
    obtain ⟨t, ht, hrestored⟩ := hdone (encodeMsg_of_issue hcall delimiter) hidle2
    exact ⟨_, t, u, ht, hrestored.cfg, hrestored.idle, encodeMsg_of_issue hplain delimiter⟩
  · obtain ⟨out, s2, u, hcall, hidle2, hplain⟩ := hcongr (decmInstrs body)
    obtain ⟨t, ht, hrestored⟩ := hdone ((decodeMsg_of_strip hbody s1).trans hcall) hidle2
    exact ⟨out, t, u, ht, hrestored.cfg, hrestored.idle, (decodeMsg_of_strip hbody _).trans hplain⟩
  · obtain ⟨t, ht, hrestored⟩ := hmismatch (decodeMsg_of_mismatch hnone s1) hidle1
    exact ⟨t, ht, hrestored.cfg, hrestored.acc.trans hacc1, hrestored.dcnt.trans hdcnt1, hrestored.idle⟩
  · obtain ⟨s2, hcall, hacc, hdcnt, -, hidle2⟩ := hidle1.abandonDecode_eq begun
    obtain ⟨t, ht, hrestored⟩ := hmismatch hcall hidle2
    exact ⟨t, ht, hrestored.cfg, hrestored.acc.trans hacc, hrestored.dcnt.trans hdcnt, hrestored.idle⟩

end Sys2Proof.Machine
end

section
/-! SUPPORT. Family 60_exceptions.md, the edges: one that asks for nothing keeps the state, one that presents a word
runs it, and after the first reset every edge answers a next state (60_exceptions.md R223, R228, R229, R238). -/

namespace Sys2Proof.Machine

/-! ### What an edge does -/

@[simp] theorem State.serveResponse_false (s : State) : s.serveResponse false = s := s.serveResponse_eq false

theorem accepted_of_cmd_eq_none (b : Build) {e : PortEdge} (hcmd : e.cmd = none) (s : State) :
    accepted b e s = none := by
  cases h : accepted b e s with
  | none => rfl
  | some w =>
    obtain ⟨hw, -⟩ := accepted_some h
    cases hcmd.symm.trans hw

theorem step_of_pins_eq_nil {s : State} (hpins : s.pins = []) : step s = .next s := by
  rw [step, clock, hpins]

/-- A step at a reset edge is the reset, in either phase (70_reset_and_hazards.md R250). -/
theorem step_of_rst {s : State} {e : PortEdge} {later : List PortEdge} (hpins : s.pins = e :: later)
    (hrst : e.rst = true) : step s = .next (State.applyReset { s with pins := later }) := by
  simp only [step, clock, hpins, onEdge, hrst]

/-- A step at an edge without reset, before the first reset (70_reset_and_hazards.md R252). -/
theorem step_eq_preResetEdge {s : State} {e : PortEdge} {later : List PortEdge} (hphase : s.phase = .preReset)
    (hpins : s.pins = e :: later) (hrst : e.rst = false) : step s = preResetEdge e { s with pins := later } := by
  simp only [step, clock, hpins, onEdge, hrst, hphase]

theorem runWord_of_decode_eq_ok {w : CommandWord} {i : Instr} (h : decode w = .ok i) (s : State) :
    runWord exec w s = exec i s := by
  rw [runWord, h]

theorem runWord_of_decode_eq_error {w : CommandWord} {err : DecodeError} (h : decode w = .error err) (s : State) :
    runWord exec w s = .next s.raiseIllegal := by
  rw [runWord, h]

/-- A word presented to a reset block with room in RQ is run. -/
theorem step_present_eq_runWord {s : State} (hlive : s.phase = .live) (hroom : s.rq.length < Config.build.respDepth)
    (w : CommandWord) : step (s.present w) = runWord exec w s := by
  have haccepted : accepted Config.build (presentEdge w) s = some w := by
    rw [accepted, presentEdge, (cmdReady_iff _ s).mpr hroom]
  calc step (s.present w)
      = liveEdge Config.build exec (presentEdge w) s := step_eq_liveEdge (s := s.present w) hlive rfl rfl
    _ = runWord exec w (s.serveResponse false) := by rw [liveEdge, haccepted]; rfl
    _ = runWord exec w s := by rw [State.serveResponse_false]

/-- Settles O8: with no command and nothing taken the edge does nothing in either phase. -/
theorem idleBlockKeepsItsState : Obligations.IdleBlockKeepsItsState := by
  refine ⟨fun s e later hpins hrst hcmd hready => ?_, fun s => step_of_pins_eq_nil⟩
  cases hphase : s.phase with
  | preReset => rw [step_eq_preResetEdge hphase hpins hrst, preResetEdge, hcmd, hphase]
  | live =>
    rw [step_eq_liveEdge hphase hpins hrst, liveEdge, accepted_of_cmd_eq_none _ hcmd, hready,
      State.serveResponse_false, hphase]

/-! ### Every edge after the first reset answers -/

theorem exec_phase {i : Instr} {s t : State} (h : exec i s = .next t) : t.phase = s.phase := by
  obtain ⟨r, -, ht⟩ := exec_next h
  have hphase := congrArg State.phase ht
  exact hphase

/-- With good registers every word answers, and the block stays reset. -/
theorem GoodRegisters.exists_runWord {s : State} (h : GoodRegisters Config.build s) (w : CommandWord) :
    ∃ t, runWord exec w s = .next t ∧ t.phase = s.phase := by
  cases hd : decode w with
  | ok i =>
    obtain ⟨t, -, hexec, -⟩ := exec_answersCount h i
    exact ⟨t, (runWord_of_decode_eq_ok hd s).trans hexec, exec_phase hexec⟩
  | error err => exact ⟨s.raiseIllegal, runWord_of_decode_eq_error hd s, rfl⟩

theorem GoodRegisters.exists_liveEdge {s : State} (h : GoodRegisters Config.build s) (e : PortEdge) :
    ∃ t, liveEdge Config.build exec e s = .next t ∧ t.phase = s.phase := by
  unfold liveEdge
  cases accepted Config.build e s with
  | none => exact ⟨_, rfl, s.serveResponse_phase _⟩
  | some w =>
    obtain ⟨t, hrun, hphase⟩ := (h.serveResponse e.rspReady).exists_runWord w
    exact ⟨t, hrun, hphase.trans (s.serveResponse_phase _)⟩

/-- Settles O11: no edge to come, a reset, or a live edge, which answers because the invariant excludes both faults. -/
theorem resetBlockNeverStops : Obligations.ResetBlockNeverStops := by
  intro s hinv hlive
  cases hpins : s.pins with
  | nil => exact ⟨s, step_of_pins_eq_nil hpins, hlive⟩
  | cons e later =>
    cases hrst : e.rst with
    | true => exact ⟨_, step_of_rst hpins hrst, rfl⟩
    | false =>
      obtain ⟨t, hedge, hphase⟩ := (hinv.setPins later).goodRegisters.exists_liveEdge e
      exact ⟨t, (step_eq_liveEdge hlive hpins hrst).trans hedge, hphase.trans hlive⟩

end Sys2Proof.Machine
end

section
/-! SUPPORT. Family 60_exceptions.md, the outcome of a word: the list of R220 is the words that spell no command
or a CFG whose image does not exist, and these alone answer ILLEGAL (60_exceptions.md R220 to R222, R225). -/

namespace Sys2Proof.Machine

/-- The values of N that spell no ENC command (30_encoding.md R82). -/
theorem exists_decodeEnc_eq_error_iff (w : CommandWord) :
    (∃ err, decodeEnc w = .error err) ↔ (nField w).toNat = 0 ∨ 5 ≤ (nField w).toNat := by
  unfold decodeEnc
  split
  case h_5 =>
    simp only [imp_false, Except.error.injEq, exists_eq', true_iff] at *
    omega
  all_goals
    simp only [reduceCtorEq, exists_false, false_iff]
    omega

/-- The words that spell no command (30_encoding.md R81, R85). -/
theorem exists_decode_eq_error_iff (w : CommandWord) :
    (∃ err, decode w = .error err) ↔
      (opField w).toNat = 0 ∨ 7 ≤ (opField w).toNat ∨
        ((opField w).toNat = 1 ∧ ((nField w).toNat = 0 ∨ 5 ≤ (nField w).toNat)) := by
  unfold decode
  split
  case h_1 hop => simp [exists_decodeEnc_eq_error_iff, hop]
  case h_7 =>
    simp only [imp_false, Except.error.injEq, exists_eq', true_iff] at *
    omega
  all_goals
    simp only [reduceCtorEq, exists_false, false_iff]
    omega

/-- The words that spell CFG (30_encoding.md R81, R83). -/
theorem decode_eq_cfg_iff {w : CommandWord} {ts : BitVec 2} {gs : BitVec 1} :
    decode w = .ok (.cfg ts gs) ↔ opField w = 4 ∧ tselField w = ts ∧ gsField w = gs :=
  decode_eq_ok_iff_spells

/-- The words that spell a CFG of an image that does not exist (42_control.md R181). -/
theorem exists_decode_eq_refused_cfg_iff (b : Build) (w : CommandWord) :
    (∃ ts gs, decode w = .ok (.cfg ts gs) ∧ tselExists b ts = false) ↔
      (opField w).toNat = 4 ∧ ((tselField w).toNat = 3 ∨ ((tselField w).toNat = 2 ∧ b.hasCustom = false)) := by
  have hop : (opField w).toNat = 4 ↔ opField w = 4 := BitVec.toNat_inj (y := 4)
  have htsel3 : (tselField w).toNat = 3 ↔ tselField w = 3 := BitVec.toNat_inj (y := 3)
  have htsel2 : (tselField w).toNat = 2 ↔ tselField w = 2 := BitVec.toNat_inj (y := 2)
  rw [hop, htsel3, htsel2, ← tselExists_eq_false_iff]
  simp [decode_eq_cfg_iff]

/-- The list of 60_exceptions.md R220 by what the words spell. -/
theorem illegalWord_iff (b : Build) (w : CommandWord) :
    IllegalWord b w ↔
      (∃ err, decode w = .error err) ∨ ∃ ts gs, decode w = .ok (.cfg ts gs) ∧ tselExists b ts = false := by
  rw [exists_decode_eq_error_iff, exists_decode_eq_refused_cfg_iff, IllegalWord, or_assoc, or_assoc]

/-- Settles O12: such a word spells no command, or a CFG that is refused. -/
theorem illegalWordsAnswerIllegalAndChangeNothing : Obligations.IllegalWordsAnswerIllegalAndChangeNothing := by
  intro s w hillegal hlive hroom
  rw [step_present_eq_runWord hlive hroom]
  obtain ⟨err, hd⟩ | ⟨ts, gs, hd, himage⟩ := (illegalWord_iff _ w).mp hillegal
  · exact runWord_of_decode_eq_error hd s
  · rw [runWord_of_decode_eq_ok hd]
    exact congrArg Host.Outcome.next (cfgOn_of_not_tselExists himage gs s)

/-- OP of a word that spells DEC or DFL (30_encoding.md R81). -/
theorem opField_of_mnemonic {w : CommandWord} {i : Instr} (hd : decode w = .ok i)
    (hmn : i.mnemonic = .DEC ∨ i.mnemonic = .DFL) : opField w = 2 ∨ opField w = 3 := by
  have hspells := decode_eq_ok_iff_spells.mp hd
  cases i with
  | dec sym => exact .inl hspells.1
  | dfl => exact .inr hspells
  | _ => simp [Instr.mnemonic] at hmn

/-- What a command answers is OK, unless its word is listed in 60_exceptions.md R220. -/
theorem IsAnswer.ok_of_not_illegalWord {b : Build} {w : CommandWord} {i : Instr} {r : ResponseWord} (h : IsAnswer b i r)
    (hd : decode w = .ok i) (hlegal : ¬ IllegalWord b w) :
    rcOf r = 0x0 ∧ (ovfOf r = true → i.mnemonic = .DEC ∨ i.mnemonic = .DFL) := by
  obtain ⟨-, ts, gs, rfl, himage⟩ | ⟨ovf, seq, -, rfl, hovf⟩ := h
  · exact absurd ((illegalWord_iff b w).mpr (.inr ⟨ts, gs, hd, himage⟩)) hlegal
  · exact ⟨rcOf_respWord _ _ _, by rwa [ovfOf_respWord]⟩

/-- Settles O13: such a word spells a command, which answers because the invariant excludes both faults, and with OK. -/
theorem everyOtherWordAnswersOk : Obligations.EveryOtherWordAnswersOk := by
  intro s w hlegal hinv hlive hroom
  cases hd : decode w with
  | error err => exact absurd ((illegalWord_iff _ w).mpr (.inl ⟨err, hd⟩)) hlegal
  | ok i =>
    obtain ⟨t, -, hexec, -⟩ := exec_answersCount hinv.goodRegisters i
    obtain ⟨r, hanswer, ht⟩ := exec_next hexec
    obtain ⟨hrc, hovf⟩ := hanswer.ok_of_not_illegalWord hd hlegal
    have hrun : step (s.present w) = .next t := by
      rw [step_present_eq_runWord hlive hroom, runWord_of_decode_eq_ok hd, hexec]
    refine ⟨t, r, hrun, congrArg State.rq ht, hrc, fun hr => ?_⟩
    exact (opField_of_mnemonic hd (hovf hr)).imp (congrArg BitVec.toNat) (congrArg BitVec.toNat)

end Sys2Proof.Machine
end

section
/-! SUPPORT. Family 70_reset_and_hazards.md, reset and the ports: what a reset leaves, what an edge accepts, and what a
waiting response sees of it (70_reset_and_hazards.md R250, R252, R264, R271). -/

namespace Sys2Proof.Machine

/-! ### Reset (70_reset_and_hazards.md R250, R252) -/

/-- Settles O2: a reset edge is the reset in either phase, and both outputs are gated by `rst`. -/
theorem resetEdgeResetsEveryStateElement : Obligations.ResetEdgeResetsEveryStateElement := by
  intro s e later hpins hrst
  refine ⟨step_of_rst hpins hrst, ?_, ?_⟩
  · rw [hrst]; rfl
  · rw [hrst]; rfl

/-- Settles O3: before the first reset an edge asks only whether a command is presented. -/
theorem commandBeforeFirstResetIsRefused : Obligations.CommandBeforeFirstResetIsRefused := by
  intro s e later w hphase hpins hrst hcmd
  rw [step_eq_preResetEdge hphase hpins hrst, preResetEdge, hcmd]

/-! ### What an edge accepts (70_reset_and_hazards.md R264, R271) -/

/-- With room in RQ an edge without reset accepts whatever is presented. -/
theorem accepted_of_room {b : Build} {e : PortEdge} {s : State} (hrst : e.rst = false)
    (hroom : s.rq.length < b.respDepth) : accepted b e s = e.cmd := by
  rw [accepted, hrst, (cmdReady_iff b s).mpr hroom]

theorem cmdReady_of_full {b : Build} {s : State} (hfull : b.respDepth ≤ s.rq.length) : cmdReady b false s = false :=
  Bool.eq_false_iff.mpr fun hready => absurd ((cmdReady_iff b s).mp hready) (Nat.not_lt.mpr hfull)

/-- While RQ is full an edge without reset accepts nothing. -/
theorem accepted_of_full {b : Build} {e : PortEdge} {s : State} (hrst : e.rst = false)
    (hfull : b.respDepth ≤ s.rq.length) : accepted b e s = none := by
  rw [accepted, hrst, cmdReady_of_full hfull]

/-- Settles O6: a full queue accepts nothing, and what is left of the edge is the host's taking of a response. -/
theorem fullResponseQueueStallsCommands : Obligations.FullResponseQueueStallsCommands := by
  intro s e later hlive hpins hrst hfull
  have hnone : accepted Config.build e { s with pins := later } = none := accepted_of_full hrst hfull
  refine ⟨cmdReady_of_full hfull, ?_⟩
  rw [step_eq_liveEdge hlive hpins hrst, liveEdge, hnone]
  exact congrArg Host.Outcome.next (State.serveResponse_eq _ _)

theorem decode_of_decodeTableWord {nbits w : Nat} {i : Instr} (h : decodeTableWord nbits w = some i) :
    decode (tableWord nbits w) = .ok i := by
  unfold decodeTableWord at h
  cases hd : decode (tableWord nbits w) with
  | ok j => rw [hd] at h; cases h; rfl
  | error err => rw [hd] at h; cases h

/-- Settles O4: with room in RQ the word presented is accepted, and its meaning is run behind the host's taking. -/
theorem stepRunsTheDecodedCommand : Obligations.StepRunsTheDecodedCommand := by
  refine ⟨fun s e later w i hlive hpins hrst hcmd hroom hd => ?_, fun s nbits w i hlive hroom hd => ?_⟩
  · have haccepted : accepted Config.build e { s with pins := later } = some w :=
      (accepted_of_room hrst hroom).trans hcmd
    rw [step_eq_liveEdge hlive hpins hrst, liveEdge, haccepted]
    exact (runWord_of_decode_eq_ok hd _).trans (congrArg (exec i) (State.serveResponse_eq _ _))
  · exact (step_present_eq_runWord hlive hroom _).trans (runWord_of_decode_eq_ok (decode_of_decodeTableWord hd) s)

/-! ### A response that waits (70_reset_and_hazards.md R271) -/

theorem rspWord_eq_some_iff {s : State} {r : ResponseWord} : rspWord s = some r ↔ ∃ rest, s.rq = r :: rest :=
  List.head?_eq_some_iff

theorem rspValid_of_rspWord {s : State} {r : ResponseWord} (h : rspWord s = some r) : rspValid false s = true := by
  obtain ⟨rest, hrq⟩ := rspWord_eq_some_iff.mp h
  rw [rspValid, hrq]
  rfl

/-- Settles O7: where the host is not ready a live edge only adds behind the oldest response. -/
theorem untakenResponseHoldsSteady : Obligations.UntakenResponseHoldsSteady := by
  intro s t e later r hlive hpins hrst hready _ hword hstep
  obtain ⟨rest, hrq⟩ := rspWord_eq_some_iff.mp hword
  rw [step_eq_liveEdge hlive hpins hrst] at hstep
  obtain ⟨-, new, htrq, -⟩ := liveEdge_queue hstep
  rw [hready, State.serveResponse_false, hrq] at htrq
  have hkept : rspWord t = some r := rspWord_eq_some_iff.mpr ⟨rest ++ new, htrq⟩
  exact ⟨rspValid_of_rspWord hkept, hkept⟩

end Sys2Proof.Machine
end

section
/-! SUPPORT. Family 70_reset_and_hazards.md, interleaving: the encoder writes no register, and the decoder does not write
the one the encoder reads (70_reset_and_hazards.md R261). -/

namespace Sys2Proof.Machine

/-- An ENC command that answers writes RQ alone, whatever TSEL selects (40_encoder.md R130). -/
theorem exec_next_of_encodes {i : Instr} {s t : State} (henc : encodes i = true) (h : exec i s = .next t) :
    ∃ q, t = s.answered s.cfg s.acc s.dcnt q := by
  have hsymbols {w : BitVec 32} {k : Nat} (h : respondSymbols Config.build w k s = .next t) :
      ∃ q, t = s.answered s.cfg s.acc s.dcnt q := by
    obtain ⟨q, -, ht⟩ := respondSymbols_next i h
    exact ⟨q, ht⟩
  cases i with
  | enc1 b0 => exact hsymbols h
  | enc2 b0 b1 => exact hsymbols h
  | enc3 b0 b1 b2 => exact hsymbols h
  | enc4 b0 b1 b2 b3 =>
    simp only [exec, execEnc4, enc4On] at h
    split_ifs at h
    · cases h; exact ⟨_, rfl⟩
    · cases h; exact ⟨_, rfl⟩
    · exact hsymbols h
  | dec | dfl | cfg | clr | stat => cases henc

/-- DEC writes ACC, DCNT and RQ at most (41_decoder.md R150). -/
theorem cfg_eq_of_exec_dec {sym : Byte} {s t : State} (h : exec (.dec sym) s = .next t) : t.cfg = s.cfg := by
  simp only [exec, execDec, decOn] at h
  split_ifs at h
  · cases h; rfl
  · cases h; rfl
  · split at h
    · cases h
    · split at h
      · obtain ⟨r, -, ht⟩ := State.takeDigit_next Config.build sym h
        rw [ht, State.answered]
      · cases h; rfl

/-- DFL writes ACC, DCNT and RQ at most (41_decoder.md R160). -/
theorem cfg_eq_of_exec_dfl {s t : State} (h : exec .dfl s = .next t) : t.cfg = s.cfg := by
  simp only [exec, execDfl] at h
  split_ifs at h
  · cases h; rfl
  · cases h; rfl

/-- Settles O35: an ENC command leaves the registers as they were, and the next command reads nothing else. -/
theorem encoderMayInterleaveWithTheDecoder : Obligations.EncoderMayInterleaveWithTheDecoder := by
  refine ⟨fun i j s t u henc hi hj => ?_, fun _ _ _ => cfg_eq_of_exec_dec, fun _ _ => cfg_eq_of_exec_dfl⟩
  obtain ⟨q, rfl⟩ := exec_next_of_encodes henc hi
  obtain ⟨r, hu, hv⟩ := exec_next_congr (s := s) (u := s.answered s.cfg s.acc s.dcnt q) rfl hj
  exact ⟨_, q, r, hv, rfl, rfl, rfl, congrArg State.rq hu, List.append_assoc _ _ _⟩

end Sys2Proof.Machine
end
